-- ==== Sys2Proof/Word.lean ====
section
/-! DEFINITION. The widths of the host interface and of the line (spec/00_scope.md rules R6, R8, R10). -/

namespace Sys2Proof

/-- A host register access: `DATA_W` = 16 bits (R6). -/
abbrev Word := BitVec 16

/-- A byte: 8 bits (R8). -/
abbrev Byte := BitVec 8

/-- A host register index: `ADDR_W` = 4 bits (R6). -/
abbrev RegIndex := BitVec 4

/-- A level of the wire: true is 1, high; false is 0, low (R8). -/
abbrev Level := Bool

end Sys2Proof
end

