-- ==== Sys2Proof/Syntax.lean ====
section
/-! DEFINITION. The commands, one constructor for each row of spec/opcode_table.json (spec/30_encoding.md R91). A command
word carries no operand (R93). -/

namespace Sys2Proof

/-- The four commands of spec/30_encoding.md R91. A reserved word is no command: the decoder rejects it by name. -/
inductive Instr where
  /-- 0x0000, no effect (spec/42_composite_control.md R182). -/
  | nop
  /-- 0x0001, Decoder then Interpreter (spec/42_composite_control.md R181). -/
  | read
  /-- 0x0002, Decoder only (spec/40_decoder.md R120). -/
  | sample
  /-- 0x0003, Interpreter only (spec/41_interpreter.md R160). -/
  | interp
deriving DecidableEq, Repr

end Sys2Proof
end

