-- ==== Sys2Proof/WellFormed.lean ====
section
/-! DEFINITION. Which commands and which command words are well formed (spec/30_encoding.md R90 to R94). -/

namespace Sys2Proof

/-- A command has no operand field, so every command is well formed (R93). -/
def Instr.wellFormed : Instr → Bool
  | .nop => true
  | .read => true
  | .sample => true
  | .interp => true

/-- The command words that are not reserved: 0 to 3, all 16 bits compared (R90, R92). -/
def assignedWord (d : Word) : Bool := d.toNat < 4

end Sys2Proof
end

