-- ==== Sys2Proof/Decode.lean ====
section
/-! DEFINITION. The decoder and the encoder of command words (spec/30_encoding.md R90 to R94). -/

namespace Sys2Proof

/-- Why a word is no command. -/
inductive DecodeError where
  /-- A reserved word, 0x0004 to 0xFFFF (R92). -/
  | reservedWord (d : Word)
deriving DecidableEq, Repr

/-- The total decoder: 0 to 3 are the four commands, every other word is reserved (R91, R92). -/
def decode (d : Word) : Except DecodeError Instr :=
  match d.toNat with
  | 0 => .ok .nop
  | 1 => .ok .read
  | 2 => .ok .sample
  | 3 => .ok .interp
  | _ => .error (.reservedWord d)

/-- The command word of a command (R91, and the match words of spec/opcode_table.json). -/
def encode : Instr → Word
  | .nop => 0x0000
  | .read => 0x0001
  | .sample => 0x0002
  | .interp => 0x0003

/-- The command in an instruction of `nbits` bits whose bits are `w`: all commands are one 16-bit word (R94), so bits
above 15 must be 0; an instruction of fewer table bits has zeros above them. -/
def decodeTableWord (nbits w : Nat) : Option Instr :=
  let v := w % 2 ^ nbits
  if v < 2 ^ 16 then (decode (BitVec.ofNat 16 v)).toOption else none

end Sys2Proof
end

