-- ==== Sys2Proof/Config.lean ====
section
/-! DEFINITION. What is fixed outside a run: the protocol constants of spec/00_scope.md rule R6, the events of rule R7,
and the free stream of events by which the environment moves the block. -/

namespace Sys2Proof.Config

/-- `T_WAKE`, ticks of the wake phase (R6). -/
def tWake : Nat := 250000

/-- `T_REQ`, ticks of the request phase (R6). -/
def tReq : Nat := 20000

/-- `T_REL`, ticks of the last driven-high phase (R6). -/
def tRel : Nat := 40

/-- `N_WAIT`, high samples in WAIT before Timeout (R6). -/
def nWait : Nat := 32000

/-- `N_TRANS`, captured transitions (R6). -/
def nTrans : Nat := 10000

/-- `N_STALL`, run length that ends the frame (R6). -/
def nStall : Nat := 1000

/-- `BREAKTIME`, run length above which a selected run is a 1 bit (R6). -/
def breaktime : Nat := 20

/-- `FIRST_IDX`: only a transition with a greater index is selected (R6). -/
def firstIdx : Nat := 3

/-- `MIN_BITS`: fewer collected bits are InsufficientBits (R6). -/
def minBits : Nat := 39

/-- `FRAME_BITS`: bits stored in the raw buffer (R6). -/
def frameBits : Nat := 40

end Sys2Proof.Config

namespace Sys2Proof

/-- What a host or the tick source does in one event (R7). -/
inductive Access where
  /-- `HostWrite(a, d, cfg_ok)`: the host writes `d` to index `a`; `cfgOk` is the level of the `cfg_ok` input. -/
  | hostWrite (a : RegIndex) (d : Word) (cfgOk : Bool)
  /-- `HostRead(a)`: the host reads index `a`. -/
  | hostRead (a : RegIndex)
  /-- `Tick(s)`: one poll tick, `s` the level of the line. -/
  | tick (s : Level)
deriving DecidableEq, Repr, Inhabited

/-- An event that moves the machine. The four kinds of R7 are `reset` and the three accesses; `underReset` is what
spec/70_reset_and_hazards.md R230 says of an access that arrives while `rst` is 1 (log 6). -/
inductive Event where
  /-- `Reset`: `rst` is sampled as 1. -/
  | reset
  /-- A host access or a tick while `rst` is 0. -/
  | access (x : Access)
  /-- A host access or a tick while `rst` is 1. -/
  | underReset (x : Access)
deriving DecidableEq, Repr, Inhabited

/-- `HostWrite(a, d, cfg_ok)` as an event (R7). -/
abbrev Event.hostWrite (a : RegIndex) (d : Word) (cfgOk : Bool) : Event := .access (.hostWrite a d cfgOk)

/-- `HostRead(a)` as an event (R7). -/
abbrev Event.hostRead (a : RegIndex) : Event := .access (.hostRead a)

/-- `Tick(s)` as an event (R7). -/
abbrev Event.tick (s : Level) : Event := .access (.tick s)

/-- The environment's `n`-th free event: which of the events of R7 comes next, with its address, data, `cfg_ok` and
line level, is the environment's choice and under no law (R7; spec/20_memory.md R70; spec/93 U2, U11). It has no body,
so no proof can see its values. DESIGN CHOICE of form, safe (log 2). -/
opaque Config.envEvent : Nat → Event

end Sys2Proof
end

