-- ==== Sys2Proof/Machine/State.lean ====
section
/-! DEFINITION. The state of the machine: every stored bit of spec/10_state.md rule R20, the ports of spec/00_scope.md
rule R10 that a step hands on, and the model's own queue of events; and the state after reset. -/

namespace Sys2Proof.Machine

/-- The SensorVariant, CFG.VARIANT: a closed two-way choice (spec/30_encoding.md R98). -/
inductive Variant where
  /-- Variant A, code 0. -/
  | a
  /-- Variant B, code 1. -/
  | b
deriving DecidableEq, Repr

/-- The sequencer's control state `phase` (spec/10_state.md R31). Codes 6 and 7 never occur (spec/30_encoding.md R100)
and are not representable (log 8). -/
inductive Phase where
  /-- 0: no operation in progress. -/
  | idle
  /-- 1: line driven high. -/
  | wake
  /-- 2: line driven low. -/
  | req
  /-- 3: line driven high again. -/
  | rel
  /-- 4: waiting for the first low sample. -/
  | wait
  /-- 5: capturing transitions. -/
  | capt
deriving DecidableEq, Repr

/-- `op`: the command being executed or executed last (spec/10_state.md R24). -/
inductive Op where
  /-- 0: none. -/
  | none
  /-- 1: READ. -/
  | read
  /-- 2: SAMPLE. -/
  | sample
  /-- 3: INTERP. -/
  | interp
deriving DecidableEq, Repr

/-- The failures of spec/60_exceptions.md R201. STATUS.ERR is `none` or `some` of them; codes 6 and 7 are never
produced and are not representable (log 8). -/
inductive Failure where
  /-- 1: no low sample in the wait. -/
  | timeout
  /-- 2: fewer than 39 bits. -/
  | insufficientBits
  /-- 3: the checksum differs from byte 4. -/
  | checksumMismatch
  /-- 4: `cfg_ok` was 0 at acceptance. -/
  | configurationFailure
  /-- 5: a reserved command word. -/
  | illegalCommand
deriving DecidableEq, Repr

/-- RAW[0] to RAW[4], the source's RawSample (spec/10_state.md R32): humidity_high, humidity_low, temp_high, temp_low,
checksum. -/
structure RawSample where
  /-- RAW[0], humidity_high. -/
  b0 : Byte
  /-- RAW[1], humidity_low. -/
  b1 : Byte
  /-- RAW[2], temp_high. -/
  b2 : Byte
  /-- RAW[3], temp_low. -/
  b3 : Byte
  /-- RAW[4], checksum. -/
  b4 : Byte
deriving DecidableEq, Repr

/-- A capture record (spec/10_state.md R42, spec/30_encoding.md R101). -/
structure Record where
  /-- `cap_index`. -/
  index : BitVec 14
  /-- `cap_level`. -/
  level : Level
  /-- `cap_dur`. -/
  dur : BitVec 10
deriving DecidableEq, Repr

/-- The machine's state. The fields from `variant` to `ref` are the complete state of the block (spec/10_state.md R20);
the last five are ports and the model's own. -/
structure State where
  /-- CFG.VARIANT (R22). -/
  variant : Variant
  /-- CFG.PIN (R22). -/
  pin : BitVec 8
  /-- STATUS.DONE (R27). -/
  done : Bool
  /-- STATUS.RDV (R28). -/
  rdv : Bool
  /-- STATUS.OVR (R29). -/
  ovr : Bool
  /-- STATUS.ERR (R30). -/
  err : Option Failure
  /-- BITCNT (R33). -/
  bitcnt : BitVec 13
  /-- RAW[0] to RAW[4] (R32). -/
  raw : RawSample
  /-- CSUM (R34). -/
  csum : Byte
  /-- HUM (R35). -/
  hum : Word
  /-- TEMP, two's complement (R36). -/
  temp : Word
  /-- `phase` (R31). -/
  phase : Phase
  /-- `op` (R24). -/
  op : Op
  /-- `tcnt` (R37). -/
  tcnt : BitVec 18
  /-- `dur` (R38). -/
  dur : BitVec 10
  /-- `idx` (R39). -/
  idx : BitVec 14
  /-- `ref` (R40). -/
  ref : Level
  /-- Port `cfg_ok`: its level at the last host write (spec/00_scope.md R10; log 3). -/
  cfgOk : Bool
  /-- Port `h_rdata`: the value returned when the event just taken was a host read (spec/20_memory.md R62; log 4). -/
  rdata : Option Word
  /-- Ports `cap_valid`, `cap_index`, `cap_level`, `cap_dur` of the event just taken (spec/10_state.md R42; log 5). -/
  record : Option Record
  /-- The model's own: the events placed to happen next, oldest first (log 1). -/
  inputs : List Event
  /-- The model's own: how many free events have been used (log 2). -/
  drawn : Nat
deriving DecidableEq, Repr

/-- After `Reset` every stored bit is 0 (spec/10_state.md R43, spec/70_reset_and_hazards.md R230). The values of
`cfgOk`, `rdata`, `inputs` and `drawn` are the model's (logs 1 to 4). -/
def State.reset : State where
  variant := .a
  pin := 0
  done := false
  rdv := false
  ovr := false
  err := none
  bitcnt := 0
  raw := { b0 := 0, b1 := 0, b2 := 0, b3 := 0, b4 := 0 }
  csum := 0
  hum := 0
  temp := 0
  phase := .idle
  op := .none
  tcnt := 0
  dur := 0
  idx := 0
  ref := false
  cfgOk := true
  rdata := none
  record := none
  inputs := []
  drawn := 0

/-- Reasons for which the machine stops with a fault: none. Every failure of the spec is a value the block returns and
goes on from (spec/60_exceptions.md R200, R210; log 11). -/
inductive Fault
deriving DecidableEq, Repr

/-- Reasons for which a step has no meaning. -/
inductive Refusal where
  /-- A command that has no meaning yet, by its mnemonic. Raised nowhere, since every command has its meaning; a stop
  would be safe (log 11). -/
  | notModelled (mnemonic : String)
deriving DecidableEq, Repr

end Sys2Proof.Machine
end

