-- ==== Sys2Proof/Machine/Flags.lean ====
section
/-! DEFINITION. The codes of the enumerations, the flags, the STATUS and CFG words, and the outputs that are functions of
the state (spec/10_state.md R22, R24 to R31, R41; spec/30_encoding.md R98 to R100). -/

namespace Sys2Proof.Machine

/-- CFG.VARIANT's bit (spec/30_encoding.md R98). -/
def variantBit : Variant → Bool
  | .a => false
  | .b => true

/-- The variant of a CFG.VARIANT bit (spec/30_encoding.md R98). -/
def variantOfBit (b : Bool) : Variant := if b then .b else .a

/-- STATUS.PHASE's code (spec/30_encoding.md R100). -/
def phaseCode : Phase → BitVec 3
  | .idle => 0
  | .wake => 1
  | .req => 2
  | .rel => 3
  | .wait => 4
  | .capt => 5

/-- The value of `op` (spec/10_state.md R24). -/
def opCode : Op → BitVec 2
  | .none => 0
  | .read => 1
  | .sample => 2
  | .interp => 3

/-- STATUS.ERR's code (spec/30_encoding.md R99). -/
def errCode : Option Failure → BitVec 3
  | none => 0
  | some .timeout => 1
  | some .insufficientBits => 2
  | some .checksumMismatch => 3
  | some .configurationFailure => 4
  | some .illegalCommand => 5

/-- STATUS.BUSY and the `busy` port: 1 exactly when `phase` is not IDLE (spec/10_state.md R26, R41). -/
def busy (s : State) : Bool := s.phase != .idle

/-- The STATUS word (spec/10_state.md R25): from bit 15 down, 0, PHASE, 0, ERR, OVR, RDV, DONE, BUSY. -/
def statusWord (s : State) : Word :=
  0#5 ++ phaseCode s.phase ++ 0#1 ++ errCode s.err ++ BitVec.ofBool s.ovr ++ BitVec.ofBool s.rdv
    ++ BitVec.ofBool s.done ++ BitVec.ofBool (busy s)

/-- The CFG word (spec/10_state.md R22): PIN, seven reserved bits that read 0, VARIANT. -/
def cfgWord (s : State) : Word := s.pin ++ 0#7 ++ BitVec.ofBool (variantBit s.variant)

/-- `line_oe`: 1 exactly in WAKE, REQ and REL (spec/10_state.md R41). -/
def lineOe (s : State) : Bool :=
  match s.phase with
  | .wake => true
  | .req => true
  | .rel => true
  | .idle => false
  | .wait => false
  | .capt => false

/-- `line_out`: 1 exactly in WAKE and REL (spec/10_state.md R41). -/
def lineOut (s : State) : Level :=
  match s.phase with
  | .wake => true
  | .rel => true
  | .idle => false
  | .req => false
  | .wait => false
  | .capt => false

/-- `pin_sel`: CFG.PIN unchanged (spec/10_state.md R22, R41). -/
def pinSel (s : State) : BitVec 8 := s.pin

/-- `cap_valid`: a capture record is pulsed in the event just taken (spec/10_state.md R42). -/
def capValid (s : State) : Bool := s.record.isSome

end Sys2Proof.Machine
end

