-- ==== Sys2Proof/Machine/Operands.lean ====
section
/-! DEFINITION. The implicit operands of the commands (spec/30_encoding.md R93): the bytes of the raw buffer by index, and
the checksum and the readings that the Interpreter computes from the variant and the bytes (spec/41_interpreter.md). -/

namespace Sys2Proof.Machine

/-- RAW[k] (spec/10_state.md R32). -/
def rawByte (r : RawSample) (k : Fin 5) : Byte :=
  match k with
  | 0 => r.b0
  | 1 => r.b1
  | 2 => r.b2
  | 3 => r.b3
  | 4 => r.b4

/-- RAW with RAW[k] replaced (spec/10_state.md R32). -/
def setRawByte (r : RawSample) (k : Fin 5) (v : Byte) : RawSample :=
  match k with
  | 0 => { r with b0 := v }
  | 1 => { r with b1 := v }
  | 2 => { r with b2 := v }
  | 3 => { r with b3 := v }
  | 4 => { r with b4 := v }

/-- The cleared buffer (spec/42_composite_control.md R180). -/
def rawZero : RawSample := { b0 := 0, b1 := 0, b2 := 0, b3 := 0, b4 := 0 }

/-- The checksum: the sum of bytes 0 to 3 modulo 256 (spec/41_interpreter.md R161). -/
def checksum (r : RawSample) : Byte :=
  BitVec.ofNat 8 ((r.b0.toNat + r.b1.toNat + r.b2.toNat + r.b3.toNat) % 256)

/-- `neg_16`, the 16-bit two's complement negation (spec/00_scope.md R9). -/
def neg16 (v : Nat) : Word := BitVec.ofNat 16 ((65536 - v) % 65536)

/-- Humidity in tenths: variant A ten times byte 0 (spec/41_interpreter.md R163), variant B the 16 bits of bytes 0 and
1 (R164). -/
def humidity : Variant → RawSample → Word
  | .a, r => BitVec.ofNat 16 (r.b0.toNat * 10)
  | .b, r => BitVec.ofNat 16 (r.b0.toNat * 256 + r.b1.toNat)

/-- The magnitude of variant B's temperature, 15 bits (spec/41_interpreter.md R166). -/
def magnitude (r : RawSample) : Nat := (r.b2 &&& 0x7F).toNat * 256 + r.b3.toNat

/-- Temperature in tenths: variant A ten times byte 2, unsigned (spec/41_interpreter.md R165); variant B the
two's complement of a sign and a magnitude (R166). -/
def temperature : Variant → RawSample → Word
  | .a, r => BitVec.ofNat 16 (r.b2.toNat * 10)
  | .b, r => if r.b2.getLsbD 7 then neg16 (magnitude r) else BitVec.ofNat 16 (magnitude r)

/-- A transition is selected when its index is greater than 3 and even (spec/40_decoder.md R130). -/
def selected (idx : BitVec 14) : Bool := Config.firstIdx < idx.toNat && idx.toNat % 2 == 0

/-- The bit of a selected transition: 1 when its duration is strictly greater than 20 samples (spec/40_decoder.md
R131). -/
def bitOfRun (dur : BitVec 10) : Bool := Config.breaktime < dur.toNat

/-- A byte with one bit shifted in at the bottom (spec/40_decoder.md R132). -/
def shiftIn (v : Byte) (b : Bool) : Byte := BitVec.ofNat 8 ((v.toNat * 2 + b.toNat) % 256)

end Sys2Proof.Machine
end

