-- ==== Sys2Proof/Machine/Ops.lean ====
section
/-! DEFINITION. The operations that the commands and the events share: the host's view of the registers, the prologue,
the entry of a failure (the block's one exception entry), the Interpreter's step, the bit packer and the end of a
capture. -/

namespace Sys2Proof.Machine

/-- `HostRead(a)`'s value, the read column of the register map (spec/20_memory.md R61, R62). -/
def readReg (a : RegIndex) (s : State) : Word :=
  match a.toNat with
  | 0 => (opCode s.op).zeroExtend 16
  | 1 => cfgWord s
  | 2 => statusWord s
  | 3 => s.bitcnt.zeroExtend 16
  | 4 => s.raw.b0.zeroExtend 16
  | 5 => s.raw.b1.zeroExtend 16
  | 6 => s.raw.b2.zeroExtend 16
  | 7 => s.raw.b3.zeroExtend 16
  | 8 => s.raw.b4.zeroExtend 16
  | 9 => s.csum.zeroExtend 16
  | 10 => s.hum
  | 11 => s.temp
  | _ => 0

/-- The start of every event: `h_rdata` and `cap_valid` belong to one event (spec/10_state.md R42; logs 4 and 5). -/
def clearOutputs (s : State) : State := { s with rdata := none, record := none }

/-- A host write discarded because the block is busy (spec/20_memory.md R64): OVR and nothing else. -/
def overrun (s : State) : State := { s with ovr := true }

/-- What a write to CMD, CFG or RAW does: `f` while the block is idle; while it is busy the write is discarded whole
and sets OVR (spec/20_memory.md R63, R64). -/
def whenIdle (f : State → State) (s : State) : Host.Outcome State Fault Refusal :=
  if s.phase = .idle then .next (f s) else .next (overrun s)

/-- The prologue of every accepted command but NOP: forget the last result (spec/42_composite_control.md R180). -/
def prologue (s : State) : State :=
  { s with done := false, err := none, rdv := false, csum := 0, hum := 0, temp := 0 }

/-- The entry of a failure (spec/60_exceptions.md R209): the code, DONE, IDLE. Nothing is saved; there is no return
(R211). -/
def raiseFailure (f : Failure) (s : State) : State := { s with err := some f, done := true, phase := .idle }

/-- The end of an operation without a failure and without a Reading (spec/40_decoder.md R137). -/
def finish (s : State) : State := { s with done := true, phase := .idle }

/-- `interpret()` (spec/41_interpreter.md R160 to R167): CSUM is written in every case; a mismatch raises, a match
writes HUM, TEMP, RDV and DONE together. -/
def interpret (s : State) : State :=
  if checksum s.raw ≠ s.raw.b4 then
    raiseFailure .checksumMismatch { s with csum := checksum s.raw }
  else
    { s with
      csum := checksum s.raw
      hum := humidity s.variant s.raw
      temp := temperature s.variant s.raw
      rdv := true
      done := true
      phase := .idle }

/-- The acceptance of READ or SAMPLE, `o` the value for `op` (spec/42_composite_control.md R180, R184,
spec/40_decoder.md R121). -/
def startOperation (o : Op) (s : State) : State :=
  let s := { prologue s with op := o, raw := rawZero, bitcnt := 0 }
  if s.cfgOk then { s with phase := .wake, tcnt := 0 } else raiseFailure .configurationFailure s

/-- `push_bit(b)` (spec/40_decoder.md R132, R133): the first 40 bits are shifted into RAW[j div 8], every bit is
counted. -/
def pushBit (b : Bool) (s : State) : State :=
  if h : s.bitcnt.toNat < Config.frameBits then
    let k : Fin 5 := ⟨s.bitcnt.toNat / 8, by simp only [Config.frameBits] at h; omega⟩
    { s with raw := setRawByte s.raw k (shiftIn (rawByte s.raw k) b), bitcnt := s.bitcnt + 1 }
  else
    { s with bitcnt := s.bitcnt + 1 }

/-- `end_of_capture()` (spec/40_decoder.md R136, R137): the bit-count gate, then the end of SAMPLE or the Interpreter. -/
def endOfCapture (s : State) : State :=
  if s.bitcnt.toNat < Config.minBits then raiseFailure .insufficientBits s
  else if s.op = .sample then finish s
  else interpret s

end Sys2Proof.Machine
end

