-- ==== Sys2Proof/Machine/Control.lean ====
section
/-! DEFINITION. NOP, READ and the reserved command words (spec/42_composite_control.md). -/

namespace Sys2Proof.Machine

/-- NOP (spec/42_composite_control.md R182): nothing at all while idle. -/
def execNop (s : State) : Host.Outcome State Fault Refusal := whenIdle (fun s => s) s

/-- READ (spec/42_composite_control.md R181): its acceptance; the ticks that follow do the rest. -/
def execRead (s : State) : Host.Outcome State Fault Refusal := whenIdle (startOperation .read) s

/-- A reserved command word (spec/42_composite_control.md R183): the prologue, `op` = 0, IllegalCommand. -/
def reservedCommand (s : State) : Host.Outcome State Fault Refusal :=
  whenIdle (fun s => raiseFailure .illegalCommand { prologue s with op := .none }) s

end Sys2Proof.Machine
end

