-- ==== Sys2Proof/Machine/Decoder.lean ====
section
/-! DEFINITION. The Protocol Decoder (spec/40_decoder.md): the command SAMPLE and one `Tick` in each phase. -/

namespace Sys2Proof.Machine

/-- SAMPLE (spec/40_decoder.md R120): its acceptance; the ticks that follow do the rest. -/
def execSample (s : State) : Host.Outcome State Fault Refusal := whenIdle (startOperation .sample) s

/-- One tick of WAKE, REQ or REL (spec/40_decoder.md R122 to R124): count; at `limit` go on to `nextPhase`. The sample
is ignored. -/
def tickDrive (limit : Nat) (nextPhase : Phase) (s : State) : State :=
  if (s.tcnt + 1).toNat = limit then { s with phase := nextPhase, tcnt := 0 }
  else { s with tcnt := s.tcnt + 1 }

/-- One tick of WAIT (spec/40_decoder.md R125 to R127): a low sample enters CAPT, the 32000th high sample raises
Timeout. -/
def tickWait (level : Level) (s : State) : State :=
  if level = false then { s with phase := .capt, ref := true, dur := 0, idx := 0 }
  else if (s.tcnt + 1).toNat = Config.nWait then raiseFailure .timeout { s with tcnt := s.tcnt + 1 }
  else { s with tcnt := s.tcnt + 1 }

/-- One tick of CAPT whose sample equals `ref` (spec/40_decoder.md R128, R134). -/
def tickSame (s : State) : State :=
  if (s.dur + 1).toNat = Config.nStall then endOfCapture { s with dur := s.dur + 1 }
  else { s with dur := s.dur + 1 }

/-- The part of a run-ending tick that decodes the ended run: its record, and its bit when it is selected
(spec/40_decoder.md R129 to R131). -/
def closeRun (s : State) : State :=
  let s' := { s with record := some { index := s.idx, level := s.ref, dur := s.dur } }
  if selected s.idx then pushBit (bitOfRun s.dur) s' else s'

/-- One tick of CAPT whose sample differs from `ref` (spec/40_decoder.md R129, R135): the run ends, and the sample is
the first of the next. -/
def tickChange (level : Level) (s : State) : State :=
  let s' := { closeRun s with ref := level, dur := 1, idx := s.idx + 1 }
  if (s.idx + 1).toNat = Config.nTrans then endOfCapture s' else s'

/-- `Tick(level)` (spec/00_scope.md R7): one step of the sequencer while busy, nothing while idle (spec/40_decoder.md
R144). -/
def tick (level : Level) (s : State) : State :=
  match s.phase with
  | .idle => s
  | .wake => tickDrive Config.tWake .req s
  | .req => tickDrive Config.tReq .rel s
  | .rel => tickDrive Config.tRel .wait s
  | .wait => tickWait level s
  | .capt => if level = s.ref then tickSame s else tickChange level s

end Sys2Proof.Machine
end

