-- ==== Sys2Proof/Machine/Interpreter.lean ====
section
/-! DEFINITION. The Reading Interpreter as a command (spec/41_interpreter.md R160). -/

namespace Sys2Proof.Machine

/-- INTERP (spec/41_interpreter.md R160): the prologue, `op`, and `interpret()` on RAW as it stands, inside the write. -/
def execInterp (s : State) : Host.Outcome State Fault Refusal :=
  whenIdle (fun s => interpret { prologue s with op := .interp }) s

end Sys2Proof.Machine
end

