-- ==== Sys2Proof/Machine/Dispatch.lean ====
section
/-! DEFINITION. The meaning of each command, one arm per constructor. -/

namespace Sys2Proof.Machine

/-- A command word written to CMD (spec/42_composite_control.md R180; while busy, spec/20_memory.md R64). -/
def exec (i : Instr) (s : State) : Host.Outcome State Fault Refusal :=
  match i with
  | .nop => Sys2Proof.Machine.execNop s
  | .read => Sys2Proof.Machine.execRead s
  | .sample => Sys2Proof.Machine.execSample s
  | .interp => Sys2Proof.Machine.execInterp s

end Sys2Proof.Machine
end

