-- ==== Sys2Proof/Machine/Events.lean ====
section
/-! DEFINITION. The events of spec/00_scope.md rule R7: host writes to every index, host reads, ticks and resets. -/

namespace Sys2Proof.Machine

/-- A write to CMD: the word is decoded and its command executes; a reserved word fails (spec/30_encoding.md R90, R92;
spec/42_composite_control.md R180). -/
def writeCmd (d : Word) (s : State) : Host.Outcome State Fault Refusal :=
  match decode d with
  | .ok i => exec i s
  | .error (.reservedWord _) => reservedCommand s

/-- A write to CFG (spec/10_state.md R22): bits 0 and 15:8, while idle. -/
def writeCfg (d : Word) (s : State) : Host.Outcome State Fault Refusal :=
  whenIdle (fun s => { s with variant := variantOfBit (d.getLsbD 0), pin := d.extractLsb' 8 8 }) s

/-- A write to STATUS (spec/10_state.md R25, R29): bit 3 of the data clears OVR, busy or idle. -/
def writeStatus (d : Word) (s : State) : State := if d.getLsbD 3 then { s with ovr := false } else s

/-- A write to RAW[k] (spec/20_memory.md R63, R65): bits 7:0, while idle. -/
def writeRaw (k : Fin 5) (d : Word) (s : State) : Host.Outcome State Fault Refusal :=
  whenIdle (fun s => { s with raw := setRawByte s.raw k (d.extractLsb' 0 8) }) s

/-- `HostWrite(a, d, cfg_ok)` with `cfg_ok` already in `s.cfgOk` (spec/20_memory.md R63 to R65, the write column of
R61). -/
def hostWrite (a : RegIndex) (d : Word) (s : State) : Host.Outcome State Fault Refusal :=
  match a.toNat with
  | 0 => writeCmd d s
  | 1 => writeCfg d s
  | 2 => .next (writeStatus d s)
  | 4 => writeRaw 0 d s
  | 5 => writeRaw 1 d s
  | 6 => writeRaw 2 d s
  | 7 => writeRaw 3 d s
  | 8 => writeRaw 4 d s
  | _ => .next s

/-- `HostRead(a)` (spec/20_memory.md R62): the value on `h_rdata`, no other change. -/
def hostRead (a : RegIndex) (s : State) : State := { s with rdata := some (readReg a s) }

/-- `Reset` (spec/70_reset_and_hazards.md R230): every stored bit to 0. The environment's own fields are not the
block's and stay. -/
def resetBlock (s : State) : State :=
  { State.reset with cfgOk := s.cfgOk, inputs := s.inputs, drawn := s.drawn }

/-- An access while `rst` is 1 (spec/70_reset_and_hazards.md R230): no effect on the reset block; a read returns the
reset value. -/
def accessUnderReset (x : Access) (s : State) : State :=
  match x with
  | .hostWrite _ _ _ => resetBlock s
  | .hostRead a => hostRead a (resetBlock s)
  | .tick _ => resetBlock s

/-- A host access or a tick while `rst` is 0 (spec/00_scope.md R7). -/
def takeAccess (x : Access) (s : State) : Host.Outcome State Fault Refusal :=
  match x with
  | .hostWrite a d ok => hostWrite a d { s with cfgOk := ok }
  | .hostRead a => .next (hostRead a s)
  | .tick level => .next (tick level s)

/-- One whole event, atomic (spec/20_memory.md R67). -/
def takeEvent (e : Event) (s : State) : Host.Outcome State Fault Refusal :=
  match e with
  | .reset => .next (resetBlock s)
  | .access x => takeAccess x (clearOutputs s)
  | .underReset x => .next (accessUnderReset x s)

/-- The event that comes next and the state without it: the oldest placed event, else the environment's next free one
(spec/00_scope.md R7; logs 1 and 2). -/
def nextEvent (s : State) : Event × State :=
  match s.inputs with
  | e :: rest => (e, { s with inputs := rest })
  | [] => (Config.envEvent s.drawn, { s with drawn := s.drawn + 1 })

end Sys2Proof.Machine
end

