-- ==== Sys2Proof/Machine/Step.lean ====
section
/-! DEFINITION. The step of the machine: one event of spec/00_scope.md rule R7. -/

namespace Sys2Proof.Machine

/-- One step: take the next event (spec/00_scope.md R7). -/
def step (s : State) : Host.Outcome State Fault Refusal := takeEvent (nextEvent s).1 (nextEvent s).2

/-- `s` with the host's next act a write of the command word `w` to CMD, `cfg_ok` = 1 (spec/30_encoding.md R90,
spec/42_composite_control.md R184; logs 1 and 12). -/
def State.withFetchWord (s : State) (nbits w : Nat) : State :=
  { s with inputs := Event.hostWrite 0 (BitVec.ofNat 16 (w % 2 ^ nbits)) true :: s.inputs }

end Sys2Proof.Machine
end

