-- ==== Sys2Proof/Machine/Script.lean ====
section
/-! DEFINITION. The script notation and its pseudo-instructions as lists of events (spec/30_encoding.md R103, R104). A
script is placed in `State.inputs` (log 13). -/

namespace Sys2Proof.Machine

/-- One line of a script (spec/30_encoding.md R103). -/
inductive ScriptLine where
  /-- `RESET`. -/
  | reset
  /-- `WR a, v`; `cfgOk` is false when the line ends with `!cfg`. -/
  | wr (a : RegIndex) (v : Word) (cfgOk : Bool)
  /-- `RD a`, with `=> v` when a value is expected. -/
  | rd (a : RegIndex) (expected : Option Word)
  /-- `TICK n, level`. -/
  | ticks (n : Nat) (level : Level)
  /-- `WAVE (level,n) ...`. -/
  | wave (runs : List (Level × Nat))
  /-- `WAITDONE` in a script with explicit ticks: a read of STATUS that asserts DONE (R104). -/
  | waitDone
deriving DecidableEq, Repr

/-- The events of a script line (spec/30_encoding.md R103). -/
def lineEvents : ScriptLine → List Event
  | .reset => [.reset]
  | .wr a v ok => [.hostWrite a v ok]
  | .rd a _ => [.hostRead a]
  | .ticks n level => List.replicate n (.tick level)
  | .wave runs => runs.flatMap fun r => List.replicate r.2 (.tick r.1)
  | .waitDone => [.hostRead 2]

/-- Whether what a script line expects holds after its events. -/
def lineHolds : ScriptLine → State → Bool
  | .reset, _ => true
  | .wr _ _ _, _ => true
  | .rd _ none, _ => true
  | .rd _ (some v), s => s.rdata == some v
  | .ticks _ _, _ => true
  | .wave _, _ => true
  | .waitDone, s => (s.rdata.map fun v => v.getLsbD 1) == some true

/-- The pseudo-instructions of spec/30_encoding.md R104. -/
inductive Pseudo where
  /-- `NOP`, `READ`, `SAMPLE`, `INTERP`. -/
  | command (i : Instr)
  /-- `SETVAR A` and `SETVAR B`, with PIN 0. -/
  | setvar (v : Variant)
  /-- `SETRAW b0, b1, b2, b3, b4`. -/
  | setraw (r : RawSample)
  /-- `CLROVR`. -/
  | clrovr
  /-- `HANDSHAKE`. -/
  | handshake
  /-- `WAITDONE`. -/
  | waitdone
deriving DecidableEq, Repr

/-- The expansion of a pseudo-instruction (spec/30_encoding.md R104). -/
def expand : Pseudo → List ScriptLine
  | .command i => [.wr 0 (encode i) true]
  | .setvar v => [.wr 1 ((BitVec.ofBool (variantBit v)).zeroExtend 16) true]
  | .setraw r =>
    [.wr 4 (r.b0.zeroExtend 16) true, .wr 5 (r.b1.zeroExtend 16) true, .wr 6 (r.b2.zeroExtend 16) true,
      .wr 7 (r.b3.zeroExtend 16) true, .wr 8 (r.b4.zeroExtend 16) true]
  | .clrovr => [.wr 2 0x0008 true]
  | .handshake => [.ticks 270040 true]
  | .waitdone => [.waitDone]

end Sys2Proof.Machine
end

