-- ==== Sys2Proof/Safety.lean ====
section
/-! DEFINITION. The terms in which claims about the machine are made: what holds in every reachable state, when two states
agree on all that an operation reads, and the capture as a function of the samples. -/

namespace Sys2Proof.Machine

/-- The invariants that spec/10_state.md R44 lists, (a) to (i); (j) is about two states. -/
structure ListedInvariants (s : State) : Prop where
  /-- (a) -/
  phaseInRange : (phaseCode s.phase).toNat ≤ 5
  /-- (b) -/
  tcntBound : s.tcnt.toNat ≤ 249999
  /-- (c) -/
  durBound : s.dur.toNat ≤ 1000
  /-- (c) -/
  idxBound : s.idx.toNat ≤ 10000
  /-- (d) -/
  bitcntBound : s.bitcnt.toNat ≤ 4998
  /-- (e) -/
  notBusyAndDone : ¬(busy s = true ∧ s.done = true)
  /-- (f) -/
  readingIsOfSuccess : s.rdv = true → s.done = true ∧ s.err = none ∧ (s.op = .read ∨ s.op = .interp)
  /-- (g) -/
  noReadingNoValues : s.rdv = false → s.hum = 0 ∧ s.temp = 0
  /-- (h) -/
  errorIsDone : s.err ≠ none → s.done = true ∧ busy s = false
  /-- (i) -/
  refIsParity : s.phase = .capt → (s.ref = true ↔ s.idx.toNat % 2 = 0)

/-- The invariant that every step keeps: R44's list with what makes it inductive, each counter bounded by its own phase
(spec/40_decoder.md R122 to R129), the count of bits by the index (R130, R132), and what the prologue leaves while an
operation runs (spec/42_composite_control.md R180). -/
structure Inv (s : State) : Prop extends ListedInvariants s where
  /-- R122. -/
  wakeCount : s.phase = .wake → s.tcnt.toNat < 250000
  /-- R123. -/
  reqCount : s.phase = .req → s.tcnt.toNat < 20000
  /-- R124. -/
  relCount : s.phase = .rel → s.tcnt.toNat < 40
  /-- R125, R126. -/
  waitCount : s.phase = .wait → s.tcnt.toNat < 32000
  /-- R128: a run of 1000 samples has ended the capture. -/
  openRunShort : s.phase = .capt → s.dur.toNat < 1000
  /-- R135: 10000 transitions have ended the capture. -/
  transitionsLeft : s.phase = .capt → s.idx.toNat < 10000
  /-- spec/30_encoding.md R101: a run of length 0 occurs at index 0 only. -/
  runNotEmpty : s.phase = .capt → s.idx.toNat ≠ 0 → 1 ≤ s.dur.toNat
  /-- R130, R132: one bit for each completed even index above 3. -/
  bitsOfIndex : s.phase = .capt → s.bitcnt.toNat = (s.idx.toNat - 3) / 2
  /-- spec/42_composite_control.md R180: nothing is collected before the capture. -/
  nothingCollected : busy s = true → s.phase ≠ .capt → s.bitcnt = 0 ∧ s.raw = rawZero
  /-- spec/20_memory.md R75: no partial Reading and no verdict while busy. -/
  noVerdictWhileBusy : busy s = true → s.rdv = false ∧ s.err = none ∧ s.csum = 0
  /-- spec/10_state.md R24: only READ and SAMPLE run. -/
  runsReadOrSample : busy s = true → s.op = .read ∨ s.op = .sample
  /-- spec/10_state.md R34: CSUM is 0 where the Interpreter was not reached. -/
  csumOfSample : s.op = .sample → s.csum = 0
  /-- spec/10_state.md R34. -/
  csumOfFailure : s.err ≠ none → s.err ≠ some .checksumMismatch → s.csum = 0
  /-- spec/10_state.md R36. -/
  tempNotMin : s.temp ≠ 0x8000

/-- `n` steps, stopping at the first fault or refusal: the run of the host's interface (Laws/Ops.lean, `runSteps_eq_run`),
written over this machine's own types. -/
def runSteps : Nat → State → Host.Outcome State Fault Refusal
  | 0, s => .next s
  | n + 1, s =>
    match step s with
    | .next t => runSteps n t
    | .fault r => .fault r
    | .refused r => .refused r

/-- The next event of `s` is `e`, and `rest` are the events placed after it. -/
abbrev NextIs (s : State) (e : Event) (rest : List Event) : Prop := s.inputs = e :: rest

/-- The state in which an access acts: the event taken from the queue and the outputs of the last event gone. -/
def atAccess (s : State) (rest : List Event) : State := { s with inputs := rest, rdata := none, record := none }

/-- The indices whose write a busy block discards (spec/20_memory.md R63). -/
abbrev guardedIndex (a : RegIndex) : Prop :=
  a = 0 ∨ a = 1 ∨ a = 4 ∨ a = 5 ∨ a = 6 ∨ a = 7 ∨ a = 8

/-- The two states agree on everything an operation reads and writes (spec/10_state.md R21): they may differ in PIN,
OVR, the data last read, and each hidden counter outside the phases that read it (R37 to R40). -/
structure Agree (s t : State) : Prop where
  variant : s.variant = t.variant
  done : s.done = t.done
  rdv : s.rdv = t.rdv
  err : s.err = t.err
  bitcnt : s.bitcnt = t.bitcnt
  raw : s.raw = t.raw
  csum : s.csum = t.csum
  hum : s.hum = t.hum
  temp : s.temp = t.temp
  phase : s.phase = t.phase
  op : s.op = t.op
  tcnt : s.phase ≠ .idle → s.phase ≠ .capt → s.tcnt = t.tcnt
  dur : s.phase = .capt → s.dur = t.dur
  idx : s.phase = .capt → s.idx = t.idx
  ref : s.phase = .capt → s.ref = t.ref
  record : s.record = t.record

/-- The records pulsed in the first `n` steps, in order (spec/10_state.md R42). -/
def recordsAlong : Nat → State → List Record
  | 0, _ => []
  | n + 1, s =>
    match step s with
    | .next t => t.record.toList ++ recordsAlong n t
    | .fault _ => []
    | .refused _ => []

/-- The lengths of the runs of `c` that have ended, in order, when the run in progress has level `ref` and `n` samples
(spec/40_decoder.md R138). -/
def closedRuns : Level → Nat → List Level → List Nat
  | _, _, [] => []
  | ref, n, c :: cs => if c = ref then closedRuns ref (n + 1) cs else n :: closedRuns c 1 cs

/-- The length of the run in progress at the end of `c` (spec/40_decoder.md R138). -/
def openRun : Level → Nat → List Level → Nat
  | _, n, [] => n
  | ref, n, c :: cs => if c = ref then openRun ref (n + 1) cs else openRun c 1 cs

/-- The data bits of runs of the given lengths, the first of them with index `i`: `[n > 20]` for even indices from 4 on
(spec/40_decoder.md R138). -/
def dataBits : Nat → List Nat → List Bool
  | _, [] => []
  | i, n :: ns => (if 4 ≤ i ∧ i % 2 = 0 then [decide (20 < n)] else []) ++ dataBits (i + 1) ns

/-- Byte `k` of the buffer after the bits `bs`: the bits `8k` to `8k + 7`, the first most significant, those of an
incomplete byte right-aligned (spec/20_memory.md R73, spec/40_decoder.md R132). -/
def packedByte (bs : List Bool) (k : Nat) : Nat :=
  ((bs.drop (8 * k)).take 8).foldl (fun v b => 2 * v + b.toNat) 0

/-- The state in which a capture starts (spec/40_decoder.md R127, with the buffer as acceptance cleared it). -/
structure CaptureStart (s : State) : Prop where
  phase : s.phase = .capt
  ref : s.ref = true
  dur : s.dur = 0
  idx : s.idx = 0
  bitcnt : s.bitcnt = 0
  raw : s.raw = rawZero

/-- The samples `c` end no capture: no run reaches 1000 samples and fewer than 10000 runs end (spec/40_decoder.md R138). -/
structure CaptureGoesOn (c : List Level) : Prop where
  runsShort : ∀ n ∈ closedRuns true 0 c, n < 1000
  openShort : openRun true 0 c < 1000
  fewRuns : (closedRuns true 0 c).length < 10000

end Sys2Proof.Machine
end

