-- ==== Sys2Proof/Certificates/Slice0/Obligations.lean ====
section
/-! DEFINITION. The statements for the provers. Each docstring names the rule it formalises. -/

open Sys2Proof Sys2Proof.Machine

/-! ### Encoding and the step -/

/-- spec/30_encoding.md R91: the four command words, written out bit by bit. -/
def Obligations.CommandWordsDecode : Prop :=
  decode 0b0000000000000000 = .ok .nop ∧ decode 0b0000000000000001 = .ok .read ∧
    decode 0b0000000000000010 = .ok .sample ∧ decode 0b0000000000000011 = .ok .interp

/-- spec/30_encoding.md R90, R92: all 16 bits are compared. A word decodes to a command exactly when it is that
command's word, and is rejected by name exactly when it is 4 or more. -/
def Obligations.DecoderIsTotalAndExact : Prop :=
  ∀ d : Word, (∀ i, decode d = .ok i ↔ d = encode i) ∧ (decode d = .error (.reservedWord d) ↔ 4 ≤ d.toNat)

/-- spec/30_encoding.md R91, R94: decoding the encoding of a command gives it back, and no two commands share a word. -/
def Obligations.DecodeAndEncodeAgree : Prop :=
  ∀ i : Instr, i.wellFormed = true → decode (encode i) = .ok i ∧ ∀ j : Instr, encode j = encode i → j = i

/-- spec/20_memory.md R63: when the next event is a host write of a command word to CMD, the step is the meaning of the
decoded command in the state with that event taken, `cfg_ok` at the write's level and the outputs of the last event
gone. -/
def Obligations.StepRunsDecodedCommand : Prop :=
  ∀ (s : State) (d : Word) (ok : Bool) (rest : List Event) (i : Instr),
    NextIs s (.hostWrite 0 d ok) rest → decode d = .ok i → i.wellFormed = true →
      step s = exec i { atAccess s rest with cfgOk := ok }

/-- 60_exceptions.md R200, R210 and 20_memory.md R62 to R65: no event stops the machine; every step answers a next
state, whatever the environment does. -/
def Obligations.EveryStepAnswersNext : Prop := ∀ s : State, ∃ t, step s = .next t

/-- The model's choice of form (log 2): with no event placed, the step takes the environment's free event, whatever it
is. -/
def Obligations.UnplacedEventIsFree : Prop :=
  ∀ (s : State) (e : Event), s.inputs = [] → Config.envEvent s.drawn = e →
    step s = takeEvent e { s with drawn := s.drawn + 1 }

/-! ### The commands -/

/-- spec/42_composite_control.md R182: NOP changes no state at all while idle; while busy its word sets OVR and
nothing else. -/
def Obligations.NopChangesNothing : Prop :=
  encode .nop = 0x0000 ∧
    ∀ s : State, (s.phase = .idle → exec .nop s = .next s) ∧
      (s.phase ≠ .idle → exec .nop s = .next { s with ovr := true })

/-- spec/40_decoder.md R121 and the prologue of 42_composite_control.md R180: READ and SAMPLE, accepted with `cfg_ok`
= 1, start the handshake in the same event; `line_oe` and `line_out` are 1 from then on; all that is not named stays. -/
def Obligations.AcceptedReadOrSampleStartsHandshake : Prop :=
  ∀ (s : State) (i : Instr) (o : Op), (i = .read ∧ o = .read) ∨ (i = .sample ∧ o = .sample) →
    s.phase = .idle → s.cfgOk = true →
      ∃ t, exec i s = .next t ∧ lineOe t = true ∧ lineOut t = true ∧
        t = { s with
          done := false, err := none, rdv := false, csum := 0, hum := 0, temp := 0, op := o,
          raw := { b0 := 0, b1 := 0, b2 := 0, b3 := 0, b4 := 0 }, bitcnt := 0, phase := .wake, tcnt := 0 }

/-- spec/42_composite_control.md R184: with `cfg_ok` = 0 READ and SAMPLE end at once in ConfigurationFailure; the line
is not driven; RAW and BITCNT are 0; `op` holds the command's code. -/
def Obligations.MissingConfigurationFailsAtAcceptance : Prop :=
  ∀ (s : State) (i : Instr) (o : Op), (i = .read ∧ o = .read) ∨ (i = .sample ∧ o = .sample) →
    s.phase = .idle → s.cfgOk = false →
      ∃ t, exec i s = .next t ∧ lineOe t = false ∧ (errCode t.err).toNat = 4 ∧
        t = { s with
          done := true, err := some .configurationFailure, rdv := false, csum := 0, hum := 0, temp := 0, op := o,
          raw := { b0 := 0, b1 := 0, b2 := 0, b3 := 0, b4 := 0 }, bitcnt := 0 }

/-- spec/41_interpreter.md R161, R163 to R167: INTERP on a frame whose checksum matches completes with a Reading in
tenths; the conversion of variant B is from sign and magnitude; all that is not named stays. -/
def Obligations.InterpScalesMatchingFrame : Prop :=
  ∀ s : State, s.phase = .idle →
    (s.raw.b0.toNat + s.raw.b1.toNat + s.raw.b2.toNat + s.raw.b3.toNat) % 256 = s.raw.b4.toNat →
      ∃ t, exec .interp s = .next t ∧
        t = { s with
          done := true, err := none, rdv := true, csum := s.raw.b4, op := .interp, hum := t.hum, temp := t.temp } ∧
        (s.variant = .a → t.hum.toNat = s.raw.b0.toNat * 10 ∧ t.temp.toInt = s.raw.b2.toNat * 10) ∧
        (s.variant = .b → t.hum.toNat = s.raw.b0.toNat * 256 + s.raw.b1.toNat ∧
          (s.raw.b2.toNat < 128 → t.temp.toInt = s.raw.b2.toNat * 256 + s.raw.b3.toNat) ∧
          (128 ≤ s.raw.b2.toNat →
            t.temp.toInt = -(((s.raw.b2.toNat - 128 : Nat) : Int) * 256 + s.raw.b3.toNat)))

/-- spec/41_interpreter.md R162: a checksum that does not match raises ChecksumMismatch; CSUM holds the computed value
and no Reading is produced; all that is not named stays. -/
def Obligations.InterpRejectsMismatchedFrame : Prop :=
  ∀ s : State, s.phase = .idle →
    (s.raw.b0.toNat + s.raw.b1.toNat + s.raw.b2.toNat + s.raw.b3.toNat) % 256 ≠ s.raw.b4.toNat →
      ∃ t, exec .interp s = .next t ∧
        t.csum.toNat = (s.raw.b0.toNat + s.raw.b1.toNat + s.raw.b2.toNat + s.raw.b3.toNat) % 256 ∧
        t = { s with
          done := true, err := some .checksumMismatch, rdv := false, csum := t.csum, hum := 0, temp := 0,
          op := .interp }

/-- spec/41_interpreter.md R171, the round trip of variant B: the frame of a humidity, a temperature magnitude and a
sign reads back as them. -/
def Obligations.VariantBRoundTrip : Prop :=
  ∀ (s : State) (h t : Nat) (negative : Bool), s.phase = .idle → s.variant = .b → h < 65536 → t < 32768 →
    s.raw.b0.toNat = h / 256 → s.raw.b1.toNat = h % 256 →
    s.raw.b2.toNat = negative.toNat * 128 + t / 256 → s.raw.b3.toNat = t % 256 →
    s.raw.b4.toNat = (s.raw.b0.toNat + s.raw.b1.toNat + s.raw.b2.toNat + s.raw.b3.toNat) % 256 →
      ∃ u, exec .interp s = .next u ∧ u.rdv = true ∧ u.err = none ∧ u.hum.toNat = h ∧
        u.temp.toInt = if negative then -(t : Int) else t

/-- spec/42_composite_control.md R183: a reserved word written while idle runs the prologue and ends in
IllegalCommand, whatever `cfg_ok` is. -/
def Obligations.ReservedWordIsIllegalCommand : Prop :=
  ∀ (s : State) (d : Word) (ok : Bool) (rest : List Event),
    NextIs s (.hostWrite 0 d ok) rest → 4 ≤ d.toNat → s.phase = .idle →
      step s = .next
        { atAccess s rest with
          cfgOk := ok, done := true, err := some .illegalCommand, rdv := false, csum := 0, hum := 0, temp := 0,
          op := .none }

/-- spec/20_memory.md R64: a write to CMD, CFG or RAW while busy changes no bit of the target, decodes no command,
does not disturb the operation, and sets OVR. -/
def Obligations.BusyBlockDiscardsGuardedWrites : Prop :=
  ∀ (s : State) (a : RegIndex) (d : Word) (ok : Bool) (rest : List Event),
    NextIs s (.hostWrite a d ok) rest → guardedIndex a → s.phase ≠ .idle →
      step s = .next { atAccess s rest with cfgOk := ok, ovr := true }

/-! ### The host register space -/

/-- spec/20_memory.md R63, the whole table of what a host write does. -/
def Obligations.HostWriteFollowsTable : Prop :=
  ∀ (s : State) (a : RegIndex) (d : Word) (ok : Bool) (rest : List Event), NextIs s (.hostWrite a d ok) rest →
    step s =
      if a = 2 then
        .next { atAccess s rest with cfgOk := ok, ovr := if d.getLsbD 3 then false else s.ovr }
      else if (a = 0 ∨ a = 1 ∨ a = 4 ∨ a = 5 ∨ a = 6 ∨ a = 7 ∨ a = 8) ∧ s.phase ≠ .idle then
        .next { atAccess s rest with cfgOk := ok, ovr := true }
      else if a = 1 then
        .next { atAccess s rest with
          cfgOk := ok, variant := if d.getLsbD 0 then .b else .a, pin := BitVec.ofNat 8 (d.toNat / 256) }
      else if h : 4 ≤ a.toNat ∧ a.toNat ≤ 8 then
        .next { atAccess s rest with
          cfgOk := ok, raw := setRawByte s.raw ⟨a.toNat - 4, by omega⟩ (BitVec.ofNat 8 (d.toNat % 256)) }
      else if a = 0 then
        writeCmd d { atAccess s rest with cfgOk := ok }
      else
        .next { atAccess s rest with cfgOk := ok }

/-- spec/10_state.md R32: the five RAW registers do not alias. -/
def Obligations.RawBytesDoNotAlias : Prop :=
  ∀ (r : RawSample) (j k : Fin 5) (v : Byte), rawByte (setRawByte r k v) j = if j = k then v else rawByte r j

/-- spec/20_memory.md R61, R62 with the STATUS layout of 10_state.md R25 and the CFG layout of R22: a host read of any
index answers the map's value and changes nothing else. -/
def Obligations.HostReadAnswersMap : Prop :=
  ∀ (s : State) (a : RegIndex) (rest : List Event), NextIs s (.hostRead a) rest →
    ∃ v : Word, step s = .next { atAccess s rest with rdata := some v } ∧
      v.toNat =
        if a = 0 then (opCode s.op).toNat
        else if a = 1 then s.pin.toNat * 256 + (variantBit s.variant).toNat
        else if a = 2 then
          (phaseCode s.phase).toNat * 256 + (errCode s.err).toNat * 16 + s.ovr.toNat * 8 + s.rdv.toNat * 4 +
            s.done.toNat * 2 + (if s.phase = .idle then 0 else 1)
        else if a = 3 then s.bitcnt.toNat
        else if h : 4 ≤ a.toNat ∧ a.toNat ≤ 8 then (rawByte s.raw ⟨a.toNat - 4, by omega⟩).toNat
        else if a = 9 then s.csum.toNat
        else if a = 10 then s.hum.toNat
        else if a = 11 then s.temp.toNat
        else 0

/-- spec/10_state.md R24, 30_encoding.md R98, R99, R100: the codes of the enumerations. -/
def Obligations.EnumerationCodes : Prop :=
  [Op.none, .read, .sample, .interp].map (fun o => (opCode o).toNat) = [0, 1, 2, 3] ∧
    [Variant.a, .b].map variantBit = [false, true] ∧
    [Phase.idle, .wake, .req, .rel, .wait, .capt].map (fun p => (phaseCode p).toNat) = [0, 1, 2, 3, 4, 5] ∧
    [none, some Failure.timeout, some .insufficientBits, some .checksumMismatch, some .configurationFailure,
      some .illegalCommand].map (fun e => (errCode e).toNat) = [0, 1, 2, 3, 4, 5]

/-- spec/20_memory.md R65, R68, 10_state.md R22, R32: while idle, a read after a write to CFG or RAW sees the write,
without the reserved bits of CFG and the upper half of the data for RAW. -/
def Obligations.IdleWriteIsReadBack : Prop :=
  ∀ (s : State) (a : RegIndex) (d : Word) (ok : Bool) (rest : List Event),
    s.inputs = .hostWrite a d ok :: .hostRead a :: rest → s.phase = .idle → a = 1 ∨ (4 ≤ a.toNat ∧ a.toNat ≤ 8) →
      ∃ t v, runSteps 2 s = .next t ∧ t.inputs = rest ∧ t.rdata = some v ∧
        v.toNat = if a = 1 then d.toNat / 256 * 256 + d.toNat % 2 else d.toNat % 256

/-! ### The phases -/

/-- spec/40_decoder.md R122, R123, R124: one tick of WAKE, REQ and REL; the sample is ignored. -/
def Obligations.HandshakeTickCounts : Prop :=
  ∀ (s : State) (level : Level) (rest : List Event) (limit : Nat) (next : Phase),
    (s.phase = .wake ∧ limit = 250000 ∧ next = .req) ∨ (s.phase = .req ∧ limit = 20000 ∧ next = .rel) ∨
      (s.phase = .rel ∧ limit = 40 ∧ next = .wait) →
    NextIs s (.tick level) rest →
      step s = .next
        (if (s.tcnt + 1).toNat = limit then { atAccess s rest with phase := next, tcnt := 0 }
        else { atAccess s rest with tcnt := s.tcnt + 1 })

/-- spec/70_reset_and_hazards.md R239 with 40_decoder.md R122 to R124 and 10_state.md R41: from the acceptance to the
release of the line are exactly 270040 ticks, whatever the samples; the line is driven all that time, high in the first
250000 and the last 40 ticks and low in the 20000 between. -/
def Obligations.HandshakeTakes270040Ticks : Prop :=
  ∀ (s : State) (samples : List Level) (rest : List Event),
    s.phase = .wake → s.tcnt = 0 → samples.length = 270040 → s.inputs = samples.map Event.tick ++ rest →
      runSteps 270040 s = .next { atAccess s rest with phase := .wait, tcnt := 0 } ∧
      ∀ n, n < 270040 → ∃ t, runSteps n s = .next t ∧ lineOe t = true ∧
        (lineOut t = true ↔ n < 250000 ∨ 270000 ≤ n)

/-- spec/40_decoder.md R125, R126: one tick of WAIT. A low sample enters CAPT with the reference level high; the
32000th high sample raises Timeout. -/
def Obligations.WaitTickLooksForLow : Prop :=
  ∀ (s : State) (level : Level) (rest : List Event), s.phase = .wait → NextIs s (.tick level) rest →
    (level = false → step s = .next { atAccess s rest with phase := .capt, ref := true, dur := 0, idx := 0 }) ∧
    (level = true → (s.tcnt + 1).toNat ≠ 32000 → step s = .next { atAccess s rest with tcnt := s.tcnt + 1 }) ∧
    (level = true → (s.tcnt + 1).toNat = 32000 → step s = .next
      { atAccess s rest with tcnt := s.tcnt + 1, err := some .timeout, done := true, phase := .idle })

/-- spec/40_decoder.md R126: 32000 high samples from the start of WAIT raise Timeout at the 32000th tick and not
before; every register but ERR, DONE, `phase` and `tcnt` stays. -/
def Obligations.HighLineTimesOutAtTick32000 : Prop :=
  ∀ (s : State) (rest : List Event),
    s.phase = .wait → s.tcnt = 0 → s.inputs = List.replicate 32000 (Event.tick true) ++ rest →
      runSteps 32000 s =
        .next { atAccess s rest with tcnt := 32000, err := some .timeout, done := true, phase := .idle } ∧
      ∀ n, n < 32000 → ∃ t, runSteps n s = .next t ∧ t.phase = .wait ∧ t.tcnt.toNat = n

/-- spec/40_decoder.md R128: a tick of CAPT whose sample equals `ref` counts; the 1000th equal sample ends the capture
in the same tick, without a record. -/
def Obligations.EqualSampleLengthensRun : Prop :=
  ∀ (s : State) (rest : List Event), s.phase = .capt → NextIs s (.tick s.ref) rest →
    step s = .next
      (if (s.dur + 1).toNat = 1000 then endOfCapture { atAccess s rest with dur := s.dur + 1 }
      else { atAccess s rest with dur := s.dur + 1 })

/-- spec/40_decoder.md R129, R130, R131: a tick of CAPT whose sample differs from `ref` records the ended run, pushes a
bit when its index is above 3 and even (1 exactly when it lasted more than 20 samples), and starts the next run with
this sample; the 10000th transition ends the capture in the same tick. -/
def Obligations.DifferentSampleEndsRun : Prop :=
  ∀ (s : State) (level : Level) (rest : List Event), s.phase = .capt → level ≠ s.ref → NextIs s (.tick level) rest →
    ∃ u t : State,
      u = { atAccess s rest with record := some { index := s.idx, level := s.ref, dur := s.dur } } ∧
      t = { (if 3 < s.idx.toNat ∧ s.idx.toNat % 2 = 0 then pushBit (decide (20 < s.dur.toNat)) u else u) with
        ref := level, dur := 1, idx := s.idx + 1 } ∧
      step s = .next (if (s.idx + 1).toNat = 10000 then endOfCapture t else t)

/-- spec/40_decoder.md R132, R133: the first 40 bits are shifted into the byte of their index, later ones are counted
and dropped; nothing else changes. -/
def Obligations.PushedBitIsPackedAndCounted : Prop :=
  ∀ (s : State) (b : Bool),
    pushBit b s = { s with raw := (pushBit b s).raw, bitcnt := s.bitcnt + 1 } ∧
      ∀ k : Fin 5, (rawByte (pushBit b s).raw k).toNat =
        if s.bitcnt.toNat < 40 ∧ k.val = s.bitcnt.toNat / 8 then ((rawByte s.raw k).toNat * 2 + b.toNat) % 256
        else (rawByte s.raw k).toNat

/-- spec/40_decoder.md R136, R137: the gate is 39 bits; past it SAMPLE is done and READ is interpreted in the same
event. -/
def Obligations.GateThenResult : Prop :=
  ∀ s : State,
    (s.bitcnt.toNat < 39 →
      endOfCapture s = { s with err := some .insufficientBits, done := true, phase := .idle }) ∧
    (39 ≤ s.bitcnt.toNat → s.op = .sample → endOfCapture s = { s with done := true, phase := .idle }) ∧
    (39 ≤ s.bitcnt.toNat → s.op = .read → endOfCapture s = interpret s)

/-- spec/60_exceptions.md R209: the entry of a failure writes its code, DONE and IDLE, releases the line, and saves or
changes nothing else. -/
def Obligations.FailureEntry : Prop :=
  ∀ (f : Failure) (s : State), raiseFailure f s = { s with err := some f, done := true, phase := .idle } ∧
    busy (raiseFailure f s) = false ∧ lineOe (raiseFailure f s) = false

/-- spec/40_decoder.md R144: a tick while idle changes nothing and samples nothing. -/
def Obligations.IdleTickChangesNothing : Prop :=
  ∀ (s : State) (level : Level) (rest : List Event), s.phase = .idle → NextIs s (.tick level) rest →
    step s = .next (atAccess s rest)

/-- spec/20_memory.md R70: the sample of a tick matters in WAIT and CAPT only. -/
def Obligations.SampleMattersOnlyInWaitAndCapture : Prop :=
  ∀ (s t : State) (x y : Level) (rest : List Event), s.phase ≠ .wait → s.phase ≠ .capt →
    NextIs s (.tick x) rest → t = { s with inputs := .tick y :: rest } → step t = step s

/-! ### Reset and outputs -/

/-- spec/10_state.md R43: the value of every stored bit after reset. -/
def Obligations.ResetValuesAreZero : Prop :=
  phaseCode State.reset.phase = 0 ∧ opCode State.reset.op = 0 ∧ variantBit State.reset.variant = false ∧
    State.reset.pin = 0 ∧ State.reset.done = false ∧ State.reset.rdv = false ∧ State.reset.ovr = false ∧
    errCode State.reset.err = 0 ∧ State.reset.bitcnt = 0 ∧ State.reset.raw = ⟨0, 0, 0, 0, 0⟩ ∧
    State.reset.csum = 0 ∧ State.reset.hum = 0 ∧ State.reset.temp = 0 ∧ State.reset.tcnt = 0 ∧
    State.reset.dur = 0 ∧ State.reset.idx = 0 ∧ State.reset.ref = false ∧ lineOe State.reset = false ∧
    lineOut State.reset = false ∧ busy State.reset = false ∧ pinSel State.reset = 0

/-- spec/70_reset_and_hazards.md R230, R232: `Reset` in any phase gives the reset state and releases the line; an
access that arrives while `rst` is 1 has no effect and a read returns the reset value, 0 for every index. That the model
keeps the last `cfg_ok`, its queue and its counter over a reset is its own choice (logs 1 to 3, 6). -/
def Obligations.ResetEventClearsBlock : Prop :=
  ∀ (s : State) (e : Event) (rest : List Event), NextIs s e rest →
    ∃ t : State, t = { State.reset with cfgOk := s.cfgOk, drawn := s.drawn, inputs := rest } ∧
      lineOe t = false ∧ lineOut t = false ∧ busy t = false ∧ pinSel t = 0 ∧ capValid t = false ∧
      (e = .reset → step s = .next t) ∧
      (∀ level, e = .underReset (.tick level) → step s = .next t) ∧
      (∀ a d ok, e = .underReset (.hostWrite a d ok) → step s = .next t) ∧
      (∀ a, e = .underReset (.hostRead a) → step s = .next { t with rdata := some 0 })

/-- spec/10_state.md R41: the outputs as functions of the phase and of CFG.PIN. -/
def Obligations.OutputsFollowPhase : Prop :=
  ∀ s : State,
    (lineOe s = true ↔ s.phase = .wake ∨ s.phase = .req ∨ s.phase = .rel) ∧
    (lineOut s = true ↔ s.phase = .wake ∨ s.phase = .rel) ∧
    (busy s = true ↔ s.phase ≠ .idle) ∧ pinSel s = s.pin

/-! ### The whole machine -/

/-- spec/42_composite_control.md R187: after any event the phase is the one the control-flow graph gives, and no other
edge exists. -/
def Obligations.PhaseFollowsControlFlowGraph : Prop :=
  ∀ (s : State) (e : Event) (rest : List Event), NextIs s e rest →
    ∃ t, step s = .next t ∧ t.phase =
      match e with
      | .reset => .idle
      | .underReset _ => .idle
      | .access (.hostRead _) => s.phase
      | .access (.hostWrite a d ok) =>
        if s.phase = .idle ∧ a = 0 ∧ (d = 1 ∨ d = 2) ∧ ok = true then .wake else s.phase
      | .access (.tick level) =>
        match s.phase with
        | .idle => .idle
        | .wake => if (s.tcnt + 1).toNat = 250000 then .req else .wake
        | .req => if (s.tcnt + 1).toNat = 20000 then .rel else .req
        | .rel => if (s.tcnt + 1).toNat = 40 then .wait else .rel
        | .wait => if level = false then .capt else if (s.tcnt + 1).toNat = 32000 then .idle else .wait
        | .capt =>
          if (level = s.ref ∧ (s.dur + 1).toNat = 1000) ∨ (level ≠ s.ref ∧ (s.idx + 1).toNat = 10000) then .idle
          else .capt

/-- spec/10_state.md R23: only a reset and a host write to CFG while idle change CFG; the sequencer and the Interpreter
never do, so CFG is constant over an operation. -/
def Obligations.OnlyIdleHostWriteOrResetChangesCfg : Prop :=
  ∀ (s t : State) (e : Event) (rest : List Event), NextIs s e rest → step s = .next t →
    (t.variant ≠ s.variant ∨ t.pin ≠ s.pin) →
      e = .reset ∨ (∃ x, e = .underReset x) ∨ (s.phase = .idle ∧ ∃ d ok, e = .hostWrite 1 d ok)

/-- spec/10_state.md R29: what sets OVR (a write to CMD, CFG or RAW while busy), what clears it (a reset, a write to
STATUS with bit 3 set), and that nothing else changes it. -/
def Obligations.OverrunFlagIsSticky : Prop :=
  ∀ (s t : State) (e : Event) (rest : List Event), NextIs s e rest → step s = .next t →
    ((e = .reset ∨ ∃ x, e = .underReset x) → t.ovr = false) ∧
    (∀ d ok, e = .hostWrite 2 d ok → t.ovr = (s.ovr && !d.getLsbD 3)) ∧
    (∀ a d ok, e = .hostWrite a d ok → a ≠ 2 →
      (t.ovr = true ↔ s.ovr = true ∨ (guardedIndex a ∧ s.phase ≠ .idle))) ∧
    ((∃ a, e = .hostRead a) ∨ (∃ level, e = .tick level) → t.ovr = s.ovr)

/-- spec/20_memory.md R68, 70_reset_and_hazards.md R237: while idle, the results change only by a command other than
NOP or by a reset, and RAW also by a host write to it. -/
def Obligations.IdleResultsAreStable : Prop :=
  ∀ (s t : State) (e : Event) (rest : List Event), NextIs s e rest → step s = .next t → s.phase = .idle →
    e ≠ .reset → (∀ x, e ≠ .underReset x) → (∀ d ok, e = .hostWrite 0 d ok → d = 0) →
      t.done = s.done ∧ t.rdv = s.rdv ∧ t.err = s.err ∧ t.bitcnt = s.bitcnt ∧ t.csum = s.csum ∧ t.hum = s.hum ∧
        t.temp = s.temp ∧ t.op = s.op ∧ t.phase = .idle ∧
        ((∀ a d ok, e = .hostWrite a d ok → a.toNat < 4 ∨ 8 < a.toNat) → t.raw = s.raw)

/-- spec/60_exceptions.md R201, R208: a failure code appears only by the event and at the step its row names. For
ChecksumMismatch at the end of a capture the statement says `op ≠ SAMPLE`: in every state with `Inv` that is READ, as the
row has it; a capture with `op` none or INTERP, which no run reaches, interprets too, and that is the model's own reading
of the pseudo-code's else (log 18). -/
def Obligations.FailureCodeHasItsCause : Prop :=
  ∀ (s t : State) (e : Event) (rest : List Event) (f : Failure), NextIs s e rest → step s = .next t →
    t.err = some f → s.err ≠ some f →
      match f with
      | .timeout => s.phase = .wait ∧ e = .tick true ∧ (s.tcnt + 1).toNat = 32000
      | .insufficientBits => s.phase = .capt ∧ (∃ level, e = .tick level) ∧ t.bitcnt.toNat < 39
      | .checksumMismatch => checksum t.raw ≠ t.raw.b4 ∧ t.csum = checksum t.raw ∧
          ((s.phase = .capt ∧ (∃ level, e = .tick level) ∧ s.op ≠ .sample ∧ 39 ≤ t.bitcnt.toNat) ∨
            (s.phase = .idle ∧ ∃ ok, e = .hostWrite 0 3 ok))
      | .configurationFailure => s.phase = .idle ∧ ∃ d, (d = 1 ∨ d = 2) ∧ e = .hostWrite 0 d false
      | .illegalCommand => s.phase = .idle ∧ ∃ d ok, 4 ≤ d.toNat ∧ e = .hostWrite 0 d ok

/-- spec/10_state.md R28: RDV is set only by the Interpreter's success step: a Reading that was not there before is the
one of RAW and CFG.VARIANT, and its checksum matches. -/
def Obligations.NewReadingHasMatchingChecksum : Prop :=
  ∀ s t : State, step s = .next t → s.rdv = false → t.rdv = true →
    (t.raw.b0.toNat + t.raw.b1.toNat + t.raw.b2.toNat + t.raw.b3.toNat) % 256 = t.raw.b4.toNat ∧ t.csum = t.raw.b4 ∧
      t.hum = humidity t.variant t.raw ∧ t.temp = temperature t.variant t.raw ∧ t.done = true ∧ t.phase = .idle

/-- spec/10_state.md R44: the invariant holds after reset. -/
def Obligations.ResetSatisfiesInv : Prop := Inv State.reset

/-- spec/10_state.md R44: every step keeps the invariant, from every state that has it and for every event. -/
def Obligations.StepKeepsInv : Prop := ∀ s t : State, Inv s → step s = .next t → Inv t

/-- spec/40_decoder.md R141: an operation that is running ends, whatever the line does, within 10,292,041 ticks, and it
ends with DONE and no later event used. -/
def Obligations.EveryOperationEnds : Prop :=
  ∀ (s : State) (samples : List Level) (rest : List Event),
    Inv s → s.phase ≠ .idle → samples.length = 10292041 → s.inputs = samples.map Event.tick ++ rest →
      ∃ n t, n ≤ 10292041 ∧ runSteps n s = .next t ∧ t.phase = .idle ∧ t.done = true ∧
        t.inputs = (samples.drop n).map Event.tick ++ rest

/-- spec/40_decoder.md R141: an operation that is accepted is still running after any 271040 ticks or fewer. -/
def Obligations.NoOperationEndsBeforeTick271041 : Prop :=
  ∀ (s : State) (samples : List Level) (rest : List Event) (n : Nat),
    s.phase = .wake → s.tcnt = 0 → s.inputs = samples.map Event.tick ++ rest → n ≤ samples.length → n < 271041 →
      ∃ t, runSteps n s = .next t ∧ t.phase ≠ .idle

/-- spec/42_composite_control.md R185: READ is SAMPLE followed by INTERP. Accepted from the same idle state with the same
`cfg_ok`, the two differ in `op` only. Two operations that differ in `op` only, at any moment before their end, and that
take the same samples, differ in `op` only while they run and when they fail; where SAMPLE succeeds, READ leaves what
INTERP makes of the state that SAMPLE leaves, but for `op`. -/
def Obligations.ReadIsSampleThenInterp : Prop :=
  (∀ (s : State) (ok : Bool) (rest : List Event), s.phase = .idle →
    ∃ p, step { s with inputs := .hostWrite 0 2 ok :: rest } = .next p ∧
      step { s with inputs := .hostWrite 0 1 ok :: rest } = .next { p with op := .read } ∧
      (ok = true → p.phase ≠ .idle ∧ p.op = .sample ∧ p.done = false ∧ p.rdv = false ∧ p.err = none ∧ p.csum = 0 ∧
        p.hum = 0 ∧ p.temp = 0)) ∧
  ∀ (s : State) (samples : List Level) (rest : List Event),
    s.phase ≠ .idle → s.op = .sample → s.done = false → s.rdv = false → s.err = none → s.csum = 0 → s.hum = 0 →
    s.temp = 0 → s.inputs = samples.map Event.tick ++ rest →
      ∃ p r, runSteps samples.length s = .next p ∧ runSteps samples.length { s with op := .read } = .next r ∧
        p.inputs = rest ∧
        (p.phase ≠ .idle ∨ p.err ≠ none → r = { p with op := .read }) ∧
        (p.phase = .idle → p.err = none → ∃ q, exec .interp p = .next q ∧ r = { q with op := .read })

/-- spec/10_state.md R21, 40_decoder.md R140: whatever happened before, two operations of the same command, accepted
from any two idle states with the same CFG.VARIANT and the same `cfg_ok`, and followed by the same placed events (any
ticks and any host accesses), agree at every later moment on RAW, BITCNT, CSUM, HUM, TEMP, DONE, RDV, ERR, `phase`,
`op` and the records. -/
def Obligations.OperationDependsOnNothingEarlier : Prop :=
  ∀ (s t : State) (d : Word) (ok : Bool) (events : List Event), d = 1 ∨ d = 2 → s.phase = .idle → t.phase = .idle →
    s.variant = t.variant → s.inputs = .hostWrite 0 d ok :: events → t.inputs = .hostWrite 0 d ok :: events →
      ∃ s' t', runSteps (events.length + 1) s = .next s' ∧
        runSteps (events.length + 1) t = .next t' ∧ Agree s' t'

/-- spec/40_decoder.md R140, 10_state.md R21: two runs that agree on what an operation reads and take the same placed
events agree for ever; nothing of their histories, nor PIN nor OVR, reaches a result. -/
def Obligations.AgreementIsKeptAlongRuns : Prop :=
  ∀ (s t : State) (events : List Event), Agree s t → s.inputs = events → t.inputs = events →
    ∃ s' t', runSteps events.length s = .next s' ∧ runSteps events.length t = .next t' ∧
      Agree s' t'

/-- spec/40_decoder.md R138: the capture as a function of the sample stream, while it goes on: the records are the
ended runs in order with their levels and lengths, the bits are `[n > 20]` for even indices from 4 on, and RAW holds
them packed. -/
def Obligations.CaptureIsFunctionOfSamples : Prop :=
  ∀ (s : State) (c : List Level) (rest : List Event),
    CaptureStart s → CaptureGoesOn c → s.inputs = c.map Event.tick ++ rest →
      ∃ t, runSteps c.length s = .next t ∧ t.phase = .capt ∧ t.inputs = rest ∧
        t.idx.toNat = (closedRuns true 0 c).length ∧ t.dur.toNat = openRun true 0 c ∧
        t.bitcnt.toNat = (dataBits 0 (closedRuns true 0 c)).length ∧
        (∀ k : Fin 5, (rawByte t.raw k).toNat = packedByte (dataBits 0 (closedRuns true 0 c)) k) ∧
        (recordsAlong c.length s).map (fun r => (r.index.toNat, r.level, r.dur.toNat)) =
          (closedRuns true 0 c).zipIdx.map (fun p => (p.2, p.2 % 2 == 0, p.1))

/-- spec/40_decoder.md R134, R135, R136, R138: the capture ends at the 1000th sample of a run, or at the first sample
of run 10000, and the gate is applied to the bits of the ended runs. -/
def Obligations.CaptureEndsAtStallOrBound : Prop :=
  ∀ (s : State) (c : List Level) (last : Level) (rest : List Event),
    CaptureStart s → CaptureGoesOn c → s.inputs = (c ++ [last]).map Event.tick ++ rest →
    (openRun true 0 (c ++ [last]) = 1000 ∨ (closedRuns true 0 (c ++ [last])).length = 10000) →
      ∃ t, runSteps (c.length + 1) s = .next t ∧ t.phase = .idle ∧ t.done = true ∧ t.inputs = rest ∧
        t.bitcnt.toNat = (dataBits 0 (closedRuns true 0 c)).length ∧
        (∀ k : Fin 5, (rawByte t.raw k).toNat = packedByte (dataBits 0 (closedRuns true 0 c)) k) ∧
        (t.bitcnt.toNat < 39 → t.err = some .insufficientBits) ∧
        (39 ≤ t.bitcnt.toNat → s.op = .sample → t.err = s.err ∧ t.rdv = s.rdv) ∧
        (39 ≤ t.bitcnt.toNat → s.op = .read → t.csum = checksum t.raw ∧
          (t.csum ≠ t.raw.b4 → t.err = some .checksumMismatch ∧ t.rdv = s.rdv) ∧
          (t.csum = t.raw.b4 → t.err = s.err ∧ t.rdv = true ∧ t.hum = humidity s.variant t.raw ∧
            t.temp = temperature s.variant t.raw))

/-- spec/40_decoder.md R139: the nominal frame. A low and a high run of preamble, 40 gaps each with its pulse, a last
low run and a rest of 1000 samples: 84 records, 40 bits, the buffer packed from `[pulse > 20]`. The last clause, that
READ then answers the Reading of a frame whose checksum matches, is that of 40_decoder.md R137. -/
def Obligations.NominalFrameIsDecoded : Prop :=
  ∀ (s : State) (low high tail : Nat) (bits : List (Nat × Nat)) (rest : List Event),
    CaptureStart s → bits.length = 40 →
    (∀ n ∈ low :: high :: tail :: bits.flatMap (fun b => [b.1, b.2]), 1 ≤ n ∧ n < 1000) →
    s.inputs = lineEvents (.wave ([(false, low), (true, high)] ++ bits.flatMap (fun b => [(false, b.1), (true, b.2)]) ++
      [(false, tail), (true, 1000)])) ++ rest →
      ∃ n t, runSteps n s = .next t ∧ t.inputs = rest ∧ t.phase = .idle ∧ t.done = true ∧ t.bitcnt.toNat = 40 ∧
        (∀ k : Fin 5, (rawByte t.raw k).toNat = packedByte (bits.map fun b => decide (20 < b.2)) k) ∧
        (recordsAlong n s).map (fun r => (r.index.toNat, r.level, r.dur.toNat)) =
          ([0, low, high] ++ bits.flatMap (fun b => [b.1, b.2]) ++ [tail]).zipIdx.map
            (fun p => (p.2, p.2 % 2 == 0, p.1)) ∧
        (s.op = .read → checksum t.raw = t.raw.b4 → t.rdv = true ∧ t.err = s.err ∧ t.csum = t.raw.b4 ∧
          t.hum = humidity s.variant t.raw ∧ t.temp = temperature s.variant t.raw)

/-! ### The script notation -/

/-- spec/30_encoding.md R104: the expansions of the pseudo-instructions into host events, WAITDONE apart: R104 has it
repeat the read of STATUS until DONE, or assert DONE where the ticks are explicit; that it is exactly one read is the
model's choice (log 13). -/
def Obligations.PseudoInstructionsExpand : Prop :=
  (expand (.command .nop)).flatMap lineEvents = [.hostWrite 0 0x0000 true] ∧
    (expand (.command .read)).flatMap lineEvents = [.hostWrite 0 0x0001 true] ∧
    (expand (.command .sample)).flatMap lineEvents = [.hostWrite 0 0x0002 true] ∧
    (expand (.command .interp)).flatMap lineEvents = [.hostWrite 0 0x0003 true] ∧
    (expand (.setvar .a)).flatMap lineEvents = [.hostWrite 1 0x0000 true] ∧
    (expand (.setvar .b)).flatMap lineEvents = [.hostWrite 1 0x0001 true] ∧
    (∀ r : RawSample, (expand (.setraw r)).flatMap lineEvents =
      [.hostWrite 4 (r.b0.zeroExtend 16) true, .hostWrite 5 (r.b1.zeroExtend 16) true,
        .hostWrite 6 (r.b2.zeroExtend 16) true, .hostWrite 7 (r.b3.zeroExtend 16) true,
        .hostWrite 8 (r.b4.zeroExtend 16) true]) ∧
    (expand .clrovr).flatMap lineEvents = [.hostWrite 2 0x0008 true] ∧
    expand .handshake = [.ticks 270040 true] ∧
    (∀ n level, lineEvents (.ticks n level) = List.replicate n (.tick level)) ∧
    (expand .waitdone).flatMap lineEvents = [.hostRead 2]
end

