-- ==== Sys2Proof/Laws/State.lean ====
section
/-! SUPPORT. One lemma per field for each named update of the state: what the update writes and what it leaves. -/

namespace Sys2Proof.Machine

@[simp] theorem clearOutputs_variant (s : State) : (clearOutputs s).variant = s.variant := rfl
@[simp] theorem clearOutputs_pin (s : State) : (clearOutputs s).pin = s.pin := rfl
@[simp] theorem clearOutputs_done (s : State) : (clearOutputs s).done = s.done := rfl
@[simp] theorem clearOutputs_rdv (s : State) : (clearOutputs s).rdv = s.rdv := rfl
@[simp] theorem clearOutputs_ovr (s : State) : (clearOutputs s).ovr = s.ovr := rfl
@[simp] theorem clearOutputs_err (s : State) : (clearOutputs s).err = s.err := rfl
@[simp] theorem clearOutputs_bitcnt (s : State) : (clearOutputs s).bitcnt = s.bitcnt := rfl
@[simp] theorem clearOutputs_raw (s : State) : (clearOutputs s).raw = s.raw := rfl
@[simp] theorem clearOutputs_csum (s : State) : (clearOutputs s).csum = s.csum := rfl
@[simp] theorem clearOutputs_hum (s : State) : (clearOutputs s).hum = s.hum := rfl
@[simp] theorem clearOutputs_temp (s : State) : (clearOutputs s).temp = s.temp := rfl
@[simp] theorem clearOutputs_phase (s : State) : (clearOutputs s).phase = s.phase := rfl
@[simp] theorem clearOutputs_op (s : State) : (clearOutputs s).op = s.op := rfl
@[simp] theorem clearOutputs_tcnt (s : State) : (clearOutputs s).tcnt = s.tcnt := rfl
@[simp] theorem clearOutputs_dur (s : State) : (clearOutputs s).dur = s.dur := rfl
@[simp] theorem clearOutputs_idx (s : State) : (clearOutputs s).idx = s.idx := rfl
@[simp] theorem clearOutputs_ref (s : State) : (clearOutputs s).ref = s.ref := rfl
@[simp] theorem clearOutputs_cfgOk (s : State) : (clearOutputs s).cfgOk = s.cfgOk := rfl
@[simp] theorem clearOutputs_rdata (s : State) : (clearOutputs s).rdata = none := rfl
@[simp] theorem clearOutputs_record (s : State) : (clearOutputs s).record = none := rfl
@[simp] theorem clearOutputs_inputs (s : State) : (clearOutputs s).inputs = s.inputs := rfl
@[simp] theorem clearOutputs_drawn (s : State) : (clearOutputs s).drawn = s.drawn := rfl

@[simp] theorem overrun_variant (s : State) : (overrun s).variant = s.variant := rfl
@[simp] theorem overrun_pin (s : State) : (overrun s).pin = s.pin := rfl
@[simp] theorem overrun_done (s : State) : (overrun s).done = s.done := rfl
@[simp] theorem overrun_rdv (s : State) : (overrun s).rdv = s.rdv := rfl
@[simp] theorem overrun_ovr (s : State) : (overrun s).ovr = true := rfl
@[simp] theorem overrun_err (s : State) : (overrun s).err = s.err := rfl
@[simp] theorem overrun_bitcnt (s : State) : (overrun s).bitcnt = s.bitcnt := rfl
@[simp] theorem overrun_raw (s : State) : (overrun s).raw = s.raw := rfl
@[simp] theorem overrun_csum (s : State) : (overrun s).csum = s.csum := rfl
@[simp] theorem overrun_hum (s : State) : (overrun s).hum = s.hum := rfl
@[simp] theorem overrun_temp (s : State) : (overrun s).temp = s.temp := rfl
@[simp] theorem overrun_phase (s : State) : (overrun s).phase = s.phase := rfl
@[simp] theorem overrun_op (s : State) : (overrun s).op = s.op := rfl
@[simp] theorem overrun_tcnt (s : State) : (overrun s).tcnt = s.tcnt := rfl
@[simp] theorem overrun_dur (s : State) : (overrun s).dur = s.dur := rfl
@[simp] theorem overrun_idx (s : State) : (overrun s).idx = s.idx := rfl
@[simp] theorem overrun_ref (s : State) : (overrun s).ref = s.ref := rfl
@[simp] theorem overrun_cfgOk (s : State) : (overrun s).cfgOk = s.cfgOk := rfl
@[simp] theorem overrun_rdata (s : State) : (overrun s).rdata = s.rdata := rfl
@[simp] theorem overrun_record (s : State) : (overrun s).record = s.record := rfl
@[simp] theorem overrun_inputs (s : State) : (overrun s).inputs = s.inputs := rfl
@[simp] theorem overrun_drawn (s : State) : (overrun s).drawn = s.drawn := rfl

@[simp] theorem prologue_variant (s : State) : (prologue s).variant = s.variant := rfl
@[simp] theorem prologue_pin (s : State) : (prologue s).pin = s.pin := rfl
@[simp] theorem prologue_done (s : State) : (prologue s).done = false := rfl
@[simp] theorem prologue_rdv (s : State) : (prologue s).rdv = false := rfl
@[simp] theorem prologue_ovr (s : State) : (prologue s).ovr = s.ovr := rfl
@[simp] theorem prologue_err (s : State) : (prologue s).err = none := rfl
@[simp] theorem prologue_bitcnt (s : State) : (prologue s).bitcnt = s.bitcnt := rfl
@[simp] theorem prologue_raw (s : State) : (prologue s).raw = s.raw := rfl
@[simp] theorem prologue_csum (s : State) : (prologue s).csum = 0 := rfl
@[simp] theorem prologue_hum (s : State) : (prologue s).hum = 0 := rfl
@[simp] theorem prologue_temp (s : State) : (prologue s).temp = 0 := rfl
@[simp] theorem prologue_phase (s : State) : (prologue s).phase = s.phase := rfl
@[simp] theorem prologue_op (s : State) : (prologue s).op = s.op := rfl
@[simp] theorem prologue_tcnt (s : State) : (prologue s).tcnt = s.tcnt := rfl
@[simp] theorem prologue_dur (s : State) : (prologue s).dur = s.dur := rfl
@[simp] theorem prologue_idx (s : State) : (prologue s).idx = s.idx := rfl
@[simp] theorem prologue_ref (s : State) : (prologue s).ref = s.ref := rfl
@[simp] theorem prologue_cfgOk (s : State) : (prologue s).cfgOk = s.cfgOk := rfl
@[simp] theorem prologue_rdata (s : State) : (prologue s).rdata = s.rdata := rfl
@[simp] theorem prologue_record (s : State) : (prologue s).record = s.record := rfl
@[simp] theorem prologue_inputs (s : State) : (prologue s).inputs = s.inputs := rfl
@[simp] theorem prologue_drawn (s : State) : (prologue s).drawn = s.drawn := rfl

@[simp] theorem raiseFailure_variant (f : Failure) (s : State) : (raiseFailure f s).variant = s.variant := rfl
@[simp] theorem raiseFailure_pin (f : Failure) (s : State) : (raiseFailure f s).pin = s.pin := rfl
@[simp] theorem raiseFailure_done (f : Failure) (s : State) : (raiseFailure f s).done = true := rfl
@[simp] theorem raiseFailure_rdv (f : Failure) (s : State) : (raiseFailure f s).rdv = s.rdv := rfl
@[simp] theorem raiseFailure_ovr (f : Failure) (s : State) : (raiseFailure f s).ovr = s.ovr := rfl
@[simp] theorem raiseFailure_err (f : Failure) (s : State) : (raiseFailure f s).err = some f := rfl
@[simp] theorem raiseFailure_bitcnt (f : Failure) (s : State) : (raiseFailure f s).bitcnt = s.bitcnt := rfl
@[simp] theorem raiseFailure_raw (f : Failure) (s : State) : (raiseFailure f s).raw = s.raw := rfl
@[simp] theorem raiseFailure_csum (f : Failure) (s : State) : (raiseFailure f s).csum = s.csum := rfl
@[simp] theorem raiseFailure_hum (f : Failure) (s : State) : (raiseFailure f s).hum = s.hum := rfl
@[simp] theorem raiseFailure_temp (f : Failure) (s : State) : (raiseFailure f s).temp = s.temp := rfl
@[simp] theorem raiseFailure_phase (f : Failure) (s : State) : (raiseFailure f s).phase = .idle := rfl
@[simp] theorem raiseFailure_op (f : Failure) (s : State) : (raiseFailure f s).op = s.op := rfl
@[simp] theorem raiseFailure_tcnt (f : Failure) (s : State) : (raiseFailure f s).tcnt = s.tcnt := rfl
@[simp] theorem raiseFailure_dur (f : Failure) (s : State) : (raiseFailure f s).dur = s.dur := rfl
@[simp] theorem raiseFailure_idx (f : Failure) (s : State) : (raiseFailure f s).idx = s.idx := rfl
@[simp] theorem raiseFailure_ref (f : Failure) (s : State) : (raiseFailure f s).ref = s.ref := rfl
@[simp] theorem raiseFailure_cfgOk (f : Failure) (s : State) : (raiseFailure f s).cfgOk = s.cfgOk := rfl
@[simp] theorem raiseFailure_rdata (f : Failure) (s : State) : (raiseFailure f s).rdata = s.rdata := rfl
@[simp] theorem raiseFailure_record (f : Failure) (s : State) : (raiseFailure f s).record = s.record := rfl
@[simp] theorem raiseFailure_inputs (f : Failure) (s : State) : (raiseFailure f s).inputs = s.inputs := rfl
@[simp] theorem raiseFailure_drawn (f : Failure) (s : State) : (raiseFailure f s).drawn = s.drawn := rfl

@[simp] theorem finish_variant (s : State) : (finish s).variant = s.variant := rfl
@[simp] theorem finish_pin (s : State) : (finish s).pin = s.pin := rfl
@[simp] theorem finish_done (s : State) : (finish s).done = true := rfl
@[simp] theorem finish_rdv (s : State) : (finish s).rdv = s.rdv := rfl
@[simp] theorem finish_ovr (s : State) : (finish s).ovr = s.ovr := rfl
@[simp] theorem finish_err (s : State) : (finish s).err = s.err := rfl
@[simp] theorem finish_bitcnt (s : State) : (finish s).bitcnt = s.bitcnt := rfl
@[simp] theorem finish_raw (s : State) : (finish s).raw = s.raw := rfl
@[simp] theorem finish_csum (s : State) : (finish s).csum = s.csum := rfl
@[simp] theorem finish_hum (s : State) : (finish s).hum = s.hum := rfl
@[simp] theorem finish_temp (s : State) : (finish s).temp = s.temp := rfl
@[simp] theorem finish_phase (s : State) : (finish s).phase = .idle := rfl
@[simp] theorem finish_op (s : State) : (finish s).op = s.op := rfl
@[simp] theorem finish_tcnt (s : State) : (finish s).tcnt = s.tcnt := rfl
@[simp] theorem finish_dur (s : State) : (finish s).dur = s.dur := rfl
@[simp] theorem finish_idx (s : State) : (finish s).idx = s.idx := rfl
@[simp] theorem finish_ref (s : State) : (finish s).ref = s.ref := rfl
@[simp] theorem finish_cfgOk (s : State) : (finish s).cfgOk = s.cfgOk := rfl
@[simp] theorem finish_rdata (s : State) : (finish s).rdata = s.rdata := rfl
@[simp] theorem finish_record (s : State) : (finish s).record = s.record := rfl
@[simp] theorem finish_inputs (s : State) : (finish s).inputs = s.inputs := rfl
@[simp] theorem finish_drawn (s : State) : (finish s).drawn = s.drawn := rfl

@[simp] theorem resetBlock_variant (s : State) : (resetBlock s).variant = State.reset.variant := rfl
@[simp] theorem resetBlock_pin (s : State) : (resetBlock s).pin = State.reset.pin := rfl
@[simp] theorem resetBlock_done (s : State) : (resetBlock s).done = State.reset.done := rfl
@[simp] theorem resetBlock_rdv (s : State) : (resetBlock s).rdv = State.reset.rdv := rfl
@[simp] theorem resetBlock_ovr (s : State) : (resetBlock s).ovr = State.reset.ovr := rfl
@[simp] theorem resetBlock_err (s : State) : (resetBlock s).err = State.reset.err := rfl
@[simp] theorem resetBlock_bitcnt (s : State) : (resetBlock s).bitcnt = State.reset.bitcnt := rfl
@[simp] theorem resetBlock_raw (s : State) : (resetBlock s).raw = State.reset.raw := rfl
@[simp] theorem resetBlock_csum (s : State) : (resetBlock s).csum = State.reset.csum := rfl
@[simp] theorem resetBlock_hum (s : State) : (resetBlock s).hum = State.reset.hum := rfl
@[simp] theorem resetBlock_temp (s : State) : (resetBlock s).temp = State.reset.temp := rfl
@[simp] theorem resetBlock_phase (s : State) : (resetBlock s).phase = State.reset.phase := rfl
@[simp] theorem resetBlock_op (s : State) : (resetBlock s).op = State.reset.op := rfl
@[simp] theorem resetBlock_tcnt (s : State) : (resetBlock s).tcnt = State.reset.tcnt := rfl
@[simp] theorem resetBlock_dur (s : State) : (resetBlock s).dur = State.reset.dur := rfl
@[simp] theorem resetBlock_idx (s : State) : (resetBlock s).idx = State.reset.idx := rfl
@[simp] theorem resetBlock_ref (s : State) : (resetBlock s).ref = State.reset.ref := rfl
@[simp] theorem resetBlock_cfgOk (s : State) : (resetBlock s).cfgOk = s.cfgOk := rfl
@[simp] theorem resetBlock_rdata (s : State) : (resetBlock s).rdata = State.reset.rdata := rfl
@[simp] theorem resetBlock_record (s : State) : (resetBlock s).record = State.reset.record := rfl
@[simp] theorem resetBlock_inputs (s : State) : (resetBlock s).inputs = s.inputs := rfl
@[simp] theorem resetBlock_drawn (s : State) : (resetBlock s).drawn = s.drawn := rfl

@[simp] theorem hostRead_variant (a : RegIndex) (s : State) : (hostRead a s).variant = s.variant := rfl
@[simp] theorem hostRead_pin (a : RegIndex) (s : State) : (hostRead a s).pin = s.pin := rfl
@[simp] theorem hostRead_done (a : RegIndex) (s : State) : (hostRead a s).done = s.done := rfl
@[simp] theorem hostRead_rdv (a : RegIndex) (s : State) : (hostRead a s).rdv = s.rdv := rfl
@[simp] theorem hostRead_ovr (a : RegIndex) (s : State) : (hostRead a s).ovr = s.ovr := rfl
@[simp] theorem hostRead_err (a : RegIndex) (s : State) : (hostRead a s).err = s.err := rfl
@[simp] theorem hostRead_bitcnt (a : RegIndex) (s : State) : (hostRead a s).bitcnt = s.bitcnt := rfl
@[simp] theorem hostRead_raw (a : RegIndex) (s : State) : (hostRead a s).raw = s.raw := rfl
@[simp] theorem hostRead_csum (a : RegIndex) (s : State) : (hostRead a s).csum = s.csum := rfl
@[simp] theorem hostRead_hum (a : RegIndex) (s : State) : (hostRead a s).hum = s.hum := rfl
@[simp] theorem hostRead_temp (a : RegIndex) (s : State) : (hostRead a s).temp = s.temp := rfl
@[simp] theorem hostRead_phase (a : RegIndex) (s : State) : (hostRead a s).phase = s.phase := rfl
@[simp] theorem hostRead_op (a : RegIndex) (s : State) : (hostRead a s).op = s.op := rfl
@[simp] theorem hostRead_tcnt (a : RegIndex) (s : State) : (hostRead a s).tcnt = s.tcnt := rfl
@[simp] theorem hostRead_dur (a : RegIndex) (s : State) : (hostRead a s).dur = s.dur := rfl
@[simp] theorem hostRead_idx (a : RegIndex) (s : State) : (hostRead a s).idx = s.idx := rfl
@[simp] theorem hostRead_ref (a : RegIndex) (s : State) : (hostRead a s).ref = s.ref := rfl
@[simp] theorem hostRead_cfgOk (a : RegIndex) (s : State) : (hostRead a s).cfgOk = s.cfgOk := rfl
@[simp] theorem hostRead_rdata (a : RegIndex) (s : State) : (hostRead a s).rdata = some (readReg a s) := rfl
@[simp] theorem hostRead_record (a : RegIndex) (s : State) : (hostRead a s).record = s.record := rfl
@[simp] theorem hostRead_inputs (a : RegIndex) (s : State) : (hostRead a s).inputs = s.inputs := rfl
@[simp] theorem hostRead_drawn (a : RegIndex) (s : State) : (hostRead a s).drawn = s.drawn := rfl

@[simp] theorem atAccess_variant (s : State) (rest : List Event) : (atAccess s rest).variant = s.variant := rfl
@[simp] theorem atAccess_pin (s : State) (rest : List Event) : (atAccess s rest).pin = s.pin := rfl
@[simp] theorem atAccess_done (s : State) (rest : List Event) : (atAccess s rest).done = s.done := rfl
@[simp] theorem atAccess_rdv (s : State) (rest : List Event) : (atAccess s rest).rdv = s.rdv := rfl
@[simp] theorem atAccess_ovr (s : State) (rest : List Event) : (atAccess s rest).ovr = s.ovr := rfl
@[simp] theorem atAccess_err (s : State) (rest : List Event) : (atAccess s rest).err = s.err := rfl
@[simp] theorem atAccess_bitcnt (s : State) (rest : List Event) : (atAccess s rest).bitcnt = s.bitcnt := rfl
@[simp] theorem atAccess_raw (s : State) (rest : List Event) : (atAccess s rest).raw = s.raw := rfl
@[simp] theorem atAccess_csum (s : State) (rest : List Event) : (atAccess s rest).csum = s.csum := rfl
@[simp] theorem atAccess_hum (s : State) (rest : List Event) : (atAccess s rest).hum = s.hum := rfl
@[simp] theorem atAccess_temp (s : State) (rest : List Event) : (atAccess s rest).temp = s.temp := rfl
@[simp] theorem atAccess_phase (s : State) (rest : List Event) : (atAccess s rest).phase = s.phase := rfl
@[simp] theorem atAccess_op (s : State) (rest : List Event) : (atAccess s rest).op = s.op := rfl
@[simp] theorem atAccess_tcnt (s : State) (rest : List Event) : (atAccess s rest).tcnt = s.tcnt := rfl
@[simp] theorem atAccess_dur (s : State) (rest : List Event) : (atAccess s rest).dur = s.dur := rfl
@[simp] theorem atAccess_idx (s : State) (rest : List Event) : (atAccess s rest).idx = s.idx := rfl
@[simp] theorem atAccess_ref (s : State) (rest : List Event) : (atAccess s rest).ref = s.ref := rfl
@[simp] theorem atAccess_cfgOk (s : State) (rest : List Event) : (atAccess s rest).cfgOk = s.cfgOk := rfl
@[simp] theorem atAccess_rdata (s : State) (rest : List Event) : (atAccess s rest).rdata = none := rfl
@[simp] theorem atAccess_record (s : State) (rest : List Event) : (atAccess s rest).record = none := rfl
@[simp] theorem atAccess_inputs (s : State) (rest : List Event) : (atAccess s rest).inputs = rest := rfl
@[simp] theorem atAccess_drawn (s : State) (rest : List Event) : (atAccess s rest).drawn = s.drawn := rfl

end Sys2Proof.Machine
end

