-- ==== Sys2Proof/Laws/Ops.lean ====
section
/-! SUPPORT. What each shared operation can do, said once. -/

namespace Sys2Proof.Machine

/-! ### The guard of a host write -/

@[simp] theorem whenIdle_of_idle {f : State → State} {s : State} (h : s.phase = .idle) :
    whenIdle f s = .next (f s) := by simp [whenIdle, h]

@[simp] theorem whenIdle_of_busy {f : State → State} {s : State} (h : s.phase ≠ .idle) :
    whenIdle f s = .next (overrun s) := by simp [whenIdle, h]

/-- A guarded write either has its effect on an idle block or is discarded with OVR. -/
theorem whenIdle_cases {f : State → State} {s t : State} (h : whenIdle f s = .next t) :
    (s.phase = .idle ∧ t = f s) ∨ (s.phase ≠ .idle ∧ t = overrun s) := by
  by_cases hs : s.phase = .idle
  · exact .inl ⟨hs, by simpa [hs] using h.symm⟩
  · exact .inr ⟨hs, by simpa [hs] using h.symm⟩

theorem busy_eq_true {s : State} : busy s = true ↔ s.phase ≠ .idle := by simp [busy]

theorem busy_eq_false {s : State} : busy s = false ↔ s.phase = .idle := by simp [busy]

/-! ### Words -/

/-- A concatenation as a number. -/
theorem toNat_append_eq_add {m n : Nat} (x : BitVec m) (y : BitVec n) :
    (x ++ y).toNat = x.toNat * 2 ^ n + y.toNat := by
  rw [BitVec.toNat_append, ← Nat.shiftLeft_add_eq_or_of_lt y.isLt, Nat.shiftLeft_eq]

/-- The CFG word as a number. -/
theorem cfgWord_toNat (s : State) : (cfgWord s).toNat = s.pin.toNat * 256 + (variantBit s.variant).toNat := by
  refine (toNat_append_eq_add (s.pin ++ 0#7) (BitVec.ofBool (variantBit s.variant))).trans ?_
  rw [toNat_append_eq_add]
  cases variantBit s.variant <;> simp <;> omega

/-- The STATUS word as a number. -/
theorem statusWord_toNat (s : State) :
    (statusWord s).toNat =
      (phaseCode s.phase).toNat * 256 + (errCode s.err).toNat * 16 + s.ovr.toNat * 8 + s.rdv.toNat * 4 +
        s.done.toNat * 2 + (busy s).toNat := by
  refine (toNat_append_eq_add (0#5 ++ phaseCode s.phase ++ 0#1 ++ errCode s.err ++ BitVec.ofBool s.ovr ++
    BitVec.ofBool s.rdv ++ BitVec.ofBool s.done) (BitVec.ofBool (busy s))).trans ?_
  simp only [toNat_append_eq_add]
  simp only [BitVec.toNat_ofBool, BitVec.toNat_ofNat]
  omega

/-- A register index is one of sixteen. -/
theorem regIndex_cases {P : RegIndex → Prop} (h : ∀ n, n < 16 → P (BitVec.ofNat 4 n)) (a : RegIndex) : P a := by
  have := h a.toNat a.isLt
  simpa using this

/-! ### The raw buffer -/

@[simp] theorem rawByte_setRawByte (r : RawSample) (k j : Fin 5) (v : Byte) :
    rawByte (setRawByte r k v) j = if j = k then v else rawByte r j := by
  revert j k; intro k j; fin_cases k <;> fin_cases j <;> rfl

@[simp] theorem rawByte_rawZero (k : Fin 5) : rawByte rawZero k = 0 := by fin_cases k <;> rfl

theorem checksum_toNat (r : RawSample) :
    (checksum r).toNat = (r.b0.toNat + r.b1.toNat + r.b2.toNat + r.b3.toNat) % 256 := by
  simp [checksum]

theorem shiftIn_toNat (v : Byte) (b : Bool) : (shiftIn v b).toNat = (v.toNat * 2 + b.toNat) % 256 := by
  simp [shiftIn]

/-! ### The Interpreter -/

/-- A mismatch raises and writes CSUM only. -/
theorem interpret_of_mismatch {s : State} (h : checksum s.raw ≠ s.raw.b4) :
    interpret s = raiseFailure .checksumMismatch { s with csum := checksum s.raw } := by simp [interpret, h]

/-- A match writes CSUM, HUM, TEMP, RDV and DONE, and the block is idle. -/
theorem interpret_of_match {s : State} (h : checksum s.raw = s.raw.b4) :
    interpret s = { s with
      csum := checksum s.raw, hum := humidity s.variant s.raw, temp := temperature s.variant s.raw, rdv := true,
      done := true, phase := .idle } := by simp [interpret, h]

@[simp] theorem interpret_phase (s : State) : (interpret s).phase = .idle := by unfold interpret; split <;> rfl

@[simp] theorem interpret_done (s : State) : (interpret s).done = true := by unfold interpret; split <;> rfl

@[simp] theorem interpret_csum (s : State) : (interpret s).csum = checksum s.raw := by
  unfold interpret; split <;> rfl

@[simp] theorem interpret_variant (s : State) : (interpret s).variant = s.variant := by unfold interpret; split <;> rfl
@[simp] theorem interpret_pin (s : State) : (interpret s).pin = s.pin := by unfold interpret; split <;> rfl
@[simp] theorem interpret_ovr (s : State) : (interpret s).ovr = s.ovr := by unfold interpret; split <;> rfl
@[simp] theorem interpret_bitcnt (s : State) : (interpret s).bitcnt = s.bitcnt := by unfold interpret; split <;> rfl
@[simp] theorem interpret_raw (s : State) : (interpret s).raw = s.raw := by unfold interpret; split <;> rfl
@[simp] theorem interpret_op (s : State) : (interpret s).op = s.op := by unfold interpret; split <;> rfl
@[simp] theorem interpret_tcnt (s : State) : (interpret s).tcnt = s.tcnt := by unfold interpret; split <;> rfl
@[simp] theorem interpret_dur (s : State) : (interpret s).dur = s.dur := by unfold interpret; split <;> rfl
@[simp] theorem interpret_idx (s : State) : (interpret s).idx = s.idx := by unfold interpret; split <;> rfl
@[simp] theorem interpret_ref (s : State) : (interpret s).ref = s.ref := by unfold interpret; split <;> rfl
@[simp] theorem interpret_cfgOk (s : State) : (interpret s).cfgOk = s.cfgOk := by unfold interpret; split <;> rfl
@[simp] theorem interpret_rdata (s : State) : (interpret s).rdata = s.rdata := by unfold interpret; split <;> rfl
@[simp] theorem interpret_record (s : State) : (interpret s).record = s.record := by unfold interpret; split <;> rfl
@[simp] theorem interpret_inputs (s : State) : (interpret s).inputs = s.inputs := by unfold interpret; split <;> rfl
@[simp] theorem interpret_drawn (s : State) : (interpret s).drawn = s.drawn := by unfold interpret; split <;> rfl

/-! ### The bit packer and the end of a capture -/

@[simp] theorem pushBit_bitcnt (b : Bool) (s : State) : (pushBit b s).bitcnt = s.bitcnt + 1 := by
  unfold pushBit; split <;> rfl

@[simp] theorem pushBit_variant (b : Bool) (s : State) : (pushBit b s).variant = s.variant := by unfold pushBit; split <;> rfl
@[simp] theorem pushBit_pin (b : Bool) (s : State) : (pushBit b s).pin = s.pin := by unfold pushBit; split <;> rfl
@[simp] theorem pushBit_done (b : Bool) (s : State) : (pushBit b s).done = s.done := by unfold pushBit; split <;> rfl
@[simp] theorem pushBit_rdv (b : Bool) (s : State) : (pushBit b s).rdv = s.rdv := by unfold pushBit; split <;> rfl
@[simp] theorem pushBit_ovr (b : Bool) (s : State) : (pushBit b s).ovr = s.ovr := by unfold pushBit; split <;> rfl
@[simp] theorem pushBit_err (b : Bool) (s : State) : (pushBit b s).err = s.err := by unfold pushBit; split <;> rfl
@[simp] theorem pushBit_csum (b : Bool) (s : State) : (pushBit b s).csum = s.csum := by unfold pushBit; split <;> rfl
@[simp] theorem pushBit_hum (b : Bool) (s : State) : (pushBit b s).hum = s.hum := by unfold pushBit; split <;> rfl
@[simp] theorem pushBit_temp (b : Bool) (s : State) : (pushBit b s).temp = s.temp := by unfold pushBit; split <;> rfl
@[simp] theorem pushBit_phase (b : Bool) (s : State) : (pushBit b s).phase = s.phase := by unfold pushBit; split <;> rfl
@[simp] theorem pushBit_op (b : Bool) (s : State) : (pushBit b s).op = s.op := by unfold pushBit; split <;> rfl
@[simp] theorem pushBit_tcnt (b : Bool) (s : State) : (pushBit b s).tcnt = s.tcnt := by unfold pushBit; split <;> rfl
@[simp] theorem pushBit_dur (b : Bool) (s : State) : (pushBit b s).dur = s.dur := by unfold pushBit; split <;> rfl
@[simp] theorem pushBit_idx (b : Bool) (s : State) : (pushBit b s).idx = s.idx := by unfold pushBit; split <;> rfl
@[simp] theorem pushBit_ref (b : Bool) (s : State) : (pushBit b s).ref = s.ref := by unfold pushBit; split <;> rfl
@[simp] theorem pushBit_cfgOk (b : Bool) (s : State) : (pushBit b s).cfgOk = s.cfgOk := by unfold pushBit; split <;> rfl
@[simp] theorem pushBit_rdata (b : Bool) (s : State) : (pushBit b s).rdata = s.rdata := by unfold pushBit; split <;> rfl
@[simp] theorem pushBit_record (b : Bool) (s : State) : (pushBit b s).record = s.record := by unfold pushBit; split <;> rfl
@[simp] theorem pushBit_inputs (b : Bool) (s : State) : (pushBit b s).inputs = s.inputs := by unfold pushBit; split <;> rfl
@[simp] theorem pushBit_drawn (b : Bool) (s : State) : (pushBit b s).drawn = s.drawn := by unfold pushBit; split <;> rfl

/-- A stored bit is shifted into the byte of its index. -/
theorem pushBit_raw_of_lt {b : Bool} {s : State} (h : s.bitcnt.toNat < Config.frameBits) (k : Fin 5)
    (hk : k.val = s.bitcnt.toNat / 8) :
    (pushBit b s).raw = setRawByte s.raw k (shiftIn (rawByte s.raw k) b) := by
  have : k = ⟨s.bitcnt.toNat / 8, by simp only [Config.frameBits] at h; omega⟩ := Fin.ext hk
  simp [pushBit, h, this]

/-- A bit beyond the fortieth is dropped. -/
theorem pushBit_raw_of_ge {b : Bool} {s : State} (h : Config.frameBits ≤ s.bitcnt.toNat) :
    (pushBit b s).raw = s.raw := by simp [pushBit, Nat.not_lt.mpr h]

/-- The end of a capture fails at the gate, ends SAMPLE, or interprets. -/
theorem endOfCapture_cases (s : State) :
    (s.bitcnt.toNat < Config.minBits ∧ endOfCapture s = raiseFailure .insufficientBits s) ∨
    (Config.minBits ≤ s.bitcnt.toNat ∧ s.op = .sample ∧ endOfCapture s = finish s) ∨
    (Config.minBits ≤ s.bitcnt.toNat ∧ s.op ≠ .sample ∧ endOfCapture s = interpret s) := by
  unfold endOfCapture
  split
  · exact .inl ⟨‹_›, rfl⟩
  · split
    · exact .inr (.inl ⟨by omega, ‹_›, rfl⟩)
    · exact .inr (.inr ⟨by omega, ‹_›, rfl⟩)

@[simp] theorem endOfCapture_phase (s : State) : (endOfCapture s).phase = .idle := by
  rcases endOfCapture_cases s with ⟨_, h⟩ | ⟨_, _, h⟩ | ⟨_, _, h⟩ <;> simp [h]

@[simp] theorem endOfCapture_done (s : State) : (endOfCapture s).done = true := by
  rcases endOfCapture_cases s with ⟨_, h⟩ | ⟨_, _, h⟩ | ⟨_, _, h⟩ <;> simp [h]

@[simp] theorem endOfCapture_variant (s : State) : (endOfCapture s).variant = s.variant := by rcases endOfCapture_cases s with ⟨_, h⟩ | ⟨_, _, h⟩ | ⟨_, _, h⟩ <;> simp [h]
@[simp] theorem endOfCapture_pin (s : State) : (endOfCapture s).pin = s.pin := by rcases endOfCapture_cases s with ⟨_, h⟩ | ⟨_, _, h⟩ | ⟨_, _, h⟩ <;> simp [h]
@[simp] theorem endOfCapture_ovr (s : State) : (endOfCapture s).ovr = s.ovr := by rcases endOfCapture_cases s with ⟨_, h⟩ | ⟨_, _, h⟩ | ⟨_, _, h⟩ <;> simp [h]
@[simp] theorem endOfCapture_bitcnt (s : State) : (endOfCapture s).bitcnt = s.bitcnt := by rcases endOfCapture_cases s with ⟨_, h⟩ | ⟨_, _, h⟩ | ⟨_, _, h⟩ <;> simp [h]
@[simp] theorem endOfCapture_raw (s : State) : (endOfCapture s).raw = s.raw := by rcases endOfCapture_cases s with ⟨_, h⟩ | ⟨_, _, h⟩ | ⟨_, _, h⟩ <;> simp [h]
@[simp] theorem endOfCapture_op (s : State) : (endOfCapture s).op = s.op := by rcases endOfCapture_cases s with ⟨_, h⟩ | ⟨_, _, h⟩ | ⟨_, _, h⟩ <;> simp [h]
@[simp] theorem endOfCapture_tcnt (s : State) : (endOfCapture s).tcnt = s.tcnt := by rcases endOfCapture_cases s with ⟨_, h⟩ | ⟨_, _, h⟩ | ⟨_, _, h⟩ <;> simp [h]
@[simp] theorem endOfCapture_dur (s : State) : (endOfCapture s).dur = s.dur := by rcases endOfCapture_cases s with ⟨_, h⟩ | ⟨_, _, h⟩ | ⟨_, _, h⟩ <;> simp [h]
@[simp] theorem endOfCapture_idx (s : State) : (endOfCapture s).idx = s.idx := by rcases endOfCapture_cases s with ⟨_, h⟩ | ⟨_, _, h⟩ | ⟨_, _, h⟩ <;> simp [h]
@[simp] theorem endOfCapture_ref (s : State) : (endOfCapture s).ref = s.ref := by rcases endOfCapture_cases s with ⟨_, h⟩ | ⟨_, _, h⟩ | ⟨_, _, h⟩ <;> simp [h]
@[simp] theorem endOfCapture_cfgOk (s : State) : (endOfCapture s).cfgOk = s.cfgOk := by rcases endOfCapture_cases s with ⟨_, h⟩ | ⟨_, _, h⟩ | ⟨_, _, h⟩ <;> simp [h]
@[simp] theorem endOfCapture_rdata (s : State) : (endOfCapture s).rdata = s.rdata := by rcases endOfCapture_cases s with ⟨_, h⟩ | ⟨_, _, h⟩ | ⟨_, _, h⟩ <;> simp [h]
@[simp] theorem endOfCapture_record (s : State) : (endOfCapture s).record = s.record := by rcases endOfCapture_cases s with ⟨_, h⟩ | ⟨_, _, h⟩ | ⟨_, _, h⟩ <;> simp [h]
@[simp] theorem endOfCapture_inputs (s : State) : (endOfCapture s).inputs = s.inputs := by rcases endOfCapture_cases s with ⟨_, h⟩ | ⟨_, _, h⟩ | ⟨_, _, h⟩ <;> simp [h]
@[simp] theorem endOfCapture_drawn (s : State) : (endOfCapture s).drawn = s.drawn := by rcases endOfCapture_cases s with ⟨_, h⟩ | ⟨_, _, h⟩ | ⟨_, _, h⟩ <;> simp [h]

/-! ### Acceptance -/

@[simp] theorem startOperation_variant (o : Op) (s : State) : (startOperation o s).variant = s.variant := by unfold startOperation; dsimp only; split <;> rfl
@[simp] theorem startOperation_pin (o : Op) (s : State) : (startOperation o s).pin = s.pin := by unfold startOperation; dsimp only; split <;> rfl
@[simp] theorem startOperation_ovr (o : Op) (s : State) : (startOperation o s).ovr = s.ovr := by unfold startOperation; dsimp only; split <;> rfl
@[simp] theorem startOperation_dur (o : Op) (s : State) : (startOperation o s).dur = s.dur := by unfold startOperation; dsimp only; split <;> rfl
@[simp] theorem startOperation_idx (o : Op) (s : State) : (startOperation o s).idx = s.idx := by unfold startOperation; dsimp only; split <;> rfl
@[simp] theorem startOperation_ref (o : Op) (s : State) : (startOperation o s).ref = s.ref := by unfold startOperation; dsimp only; split <;> rfl
@[simp] theorem startOperation_cfgOk (o : Op) (s : State) : (startOperation o s).cfgOk = s.cfgOk := by unfold startOperation; dsimp only; split <;> rfl
@[simp] theorem startOperation_rdata (o : Op) (s : State) : (startOperation o s).rdata = s.rdata := by unfold startOperation; dsimp only; split <;> rfl
@[simp] theorem startOperation_record (o : Op) (s : State) : (startOperation o s).record = s.record := by unfold startOperation; dsimp only; split <;> rfl
@[simp] theorem startOperation_inputs (o : Op) (s : State) : (startOperation o s).inputs = s.inputs := by unfold startOperation; dsimp only; split <;> rfl
@[simp] theorem startOperation_drawn (o : Op) (s : State) : (startOperation o s).drawn = s.drawn := by unfold startOperation; dsimp only; split <;> rfl

@[simp] theorem startOperation_op (o : Op) (s : State) : (startOperation o s).op = o := by
  unfold startOperation; dsimp only; split <;> rfl

/-- READ or SAMPLE with `cfg_ok` = 1 enters WAKE. -/
theorem startOperation_of_cfgOk {o : Op} {s : State} (h : s.cfgOk = true) :
    startOperation o s =
      { prologue s with op := o, raw := rawZero, bitcnt := 0, phase := .wake, tcnt := 0 } := by
  simp [startOperation, h]

/-- READ or SAMPLE with `cfg_ok` = 0 fails. -/
theorem startOperation_of_not_cfgOk {o : Op} {s : State} (h : s.cfgOk = false) :
    startOperation o s =
      raiseFailure .configurationFailure { prologue s with op := o, raw := rawZero, bitcnt := 0 } := by
  simp [startOperation, h]

/-! ### The ticks -/

@[simp] theorem closeRun_bitcnt_of_selected {s : State} (h : selected s.idx = true) :
    (closeRun s).bitcnt = s.bitcnt + 1 := by simp [closeRun, h]

@[simp] theorem closeRun_bitcnt_of_not_selected {s : State} (h : selected s.idx = false) :
    (closeRun s).bitcnt = s.bitcnt := by simp [closeRun, h]

@[simp] theorem closeRun_record (s : State) :
    (closeRun s).record = some { index := s.idx, level := s.ref, dur := s.dur } := by
  unfold closeRun; dsimp only; split <;> simp

@[simp] theorem closeRun_variant (s : State) : (closeRun s).variant = s.variant := by unfold closeRun; dsimp only; split <;> simp
@[simp] theorem closeRun_pin (s : State) : (closeRun s).pin = s.pin := by unfold closeRun; dsimp only; split <;> simp
@[simp] theorem closeRun_done (s : State) : (closeRun s).done = s.done := by unfold closeRun; dsimp only; split <;> simp
@[simp] theorem closeRun_rdv (s : State) : (closeRun s).rdv = s.rdv := by unfold closeRun; dsimp only; split <;> simp
@[simp] theorem closeRun_ovr (s : State) : (closeRun s).ovr = s.ovr := by unfold closeRun; dsimp only; split <;> simp
@[simp] theorem closeRun_err (s : State) : (closeRun s).err = s.err := by unfold closeRun; dsimp only; split <;> simp
@[simp] theorem closeRun_csum (s : State) : (closeRun s).csum = s.csum := by unfold closeRun; dsimp only; split <;> simp
@[simp] theorem closeRun_hum (s : State) : (closeRun s).hum = s.hum := by unfold closeRun; dsimp only; split <;> simp
@[simp] theorem closeRun_temp (s : State) : (closeRun s).temp = s.temp := by unfold closeRun; dsimp only; split <;> simp
@[simp] theorem closeRun_phase (s : State) : (closeRun s).phase = s.phase := by unfold closeRun; dsimp only; split <;> simp
@[simp] theorem closeRun_op (s : State) : (closeRun s).op = s.op := by unfold closeRun; dsimp only; split <;> simp
@[simp] theorem closeRun_tcnt (s : State) : (closeRun s).tcnt = s.tcnt := by unfold closeRun; dsimp only; split <;> simp
@[simp] theorem closeRun_dur (s : State) : (closeRun s).dur = s.dur := by unfold closeRun; dsimp only; split <;> simp
@[simp] theorem closeRun_idx (s : State) : (closeRun s).idx = s.idx := by unfold closeRun; dsimp only; split <;> simp
@[simp] theorem closeRun_ref (s : State) : (closeRun s).ref = s.ref := by unfold closeRun; dsimp only; split <;> simp
@[simp] theorem closeRun_cfgOk (s : State) : (closeRun s).cfgOk = s.cfgOk := by unfold closeRun; dsimp only; split <;> simp
@[simp] theorem closeRun_rdata (s : State) : (closeRun s).rdata = s.rdata := by unfold closeRun; dsimp only; split <;> simp
@[simp] theorem closeRun_inputs (s : State) : (closeRun s).inputs = s.inputs := by unfold closeRun; dsimp only; split <;> simp
@[simp] theorem closeRun_drawn (s : State) : (closeRun s).drawn = s.drawn := by unfold closeRun; dsimp only; split <;> simp

/-- A transition is selected exactly when its index is above 3 and even (spec/40_decoder.md R130). -/
theorem selected_iff (i : BitVec 14) : selected i = true ↔ 3 < i.toNat ∧ i.toNat % 2 = 0 := by
  unfold selected
  rw [Bool.and_eq_true, decide_eq_true_iff, beq_iff_eq]
  rfl

/-- A run's bit is 1 exactly when it lasted more than 20 samples (spec/40_decoder.md R131). -/
theorem bitOfRun_eq (d : BitVec 10) : bitOfRun d = decide (20 < d.toNat) := rfl

theorem tick_of_idle {s : State} (level : Level) (h : s.phase = .idle) : tick level s = s := by simp [tick, h]

theorem tick_of_wake {s : State} (level : Level) (h : s.phase = .wake) :
    tick level s = tickDrive Config.tWake .req s := by simp [tick, h]

theorem tick_of_req {s : State} (level : Level) (h : s.phase = .req) :
    tick level s = tickDrive Config.tReq .rel s := by simp [tick, h]

theorem tick_of_rel {s : State} (level : Level) (h : s.phase = .rel) :
    tick level s = tickDrive Config.tRel .wait s := by simp [tick, h]

theorem tick_of_wait {s : State} (level : Level) (h : s.phase = .wait) :
    tick level s = tickWait level s := by simp [tick, h]

theorem tick_of_capt_same {s : State} (h : s.phase = .capt) : tick s.ref s = tickSame s := by simp [tick, h]

theorem tick_of_capt_change {s : State} {level : Level} (h : s.phase = .capt) (hl : level ≠ s.ref) :
    tick level s = tickChange level s := by simp [tick, h, hl]

/-- What one tick can do. -/
theorem tick_cases (level : Level) (s : State) :
    (s.phase = .idle ∧ tick level s = s) ∨
    (s.phase = .wake ∧ tick level s = tickDrive Config.tWake .req s) ∨
    (s.phase = .req ∧ tick level s = tickDrive Config.tReq .rel s) ∨
    (s.phase = .rel ∧ tick level s = tickDrive Config.tRel .wait s) ∨
    (s.phase = .wait ∧ tick level s = tickWait level s) ∨
    (s.phase = .capt ∧ level = s.ref ∧ tick level s = tickSame s) ∨
    (s.phase = .capt ∧ level ≠ s.ref ∧ tick level s = tickChange level s) := by
  unfold tick
  cases h : s.phase <;> simp
  by_cases hl : level = s.ref <;> simp [hl]

/-- What one tick of WAKE, REQ or REL can do. -/
theorem tickDrive_cases (limit : Nat) (p : Phase) (s : State) :
    ((s.tcnt + 1).toNat = limit ∧ tickDrive limit p s = { s with phase := p, tcnt := 0 }) ∨
    ((s.tcnt + 1).toNat ≠ limit ∧ tickDrive limit p s = { s with tcnt := s.tcnt + 1 }) := by
  unfold tickDrive
  split
  · exact .inl ⟨‹_›, rfl⟩
  · exact .inr ⟨‹_›, rfl⟩

/-- What one tick of WAIT can do. -/
theorem tickWait_cases (level : Level) (s : State) :
    (level = false ∧ tickWait level s = { s with phase := .capt, ref := true, dur := 0, idx := 0 }) ∨
    (level = true ∧ (s.tcnt + 1).toNat = Config.nWait ∧
      tickWait level s = raiseFailure .timeout { s with tcnt := s.tcnt + 1 }) ∨
    (level = true ∧ (s.tcnt + 1).toNat ≠ Config.nWait ∧ tickWait level s = { s with tcnt := s.tcnt + 1 }) := by
  cases level
  · exact .inl ⟨rfl, by simp [tickWait]⟩
  · by_cases h : (s.tcnt + 1).toNat = Config.nWait
    · exact .inr (.inl ⟨rfl, h, by simp only [tickWait, h]; simp⟩)
    · exact .inr (.inr ⟨rfl, h, by simp only [tickWait, h]; simp⟩)

/-- What one tick of CAPT with the same level can do. -/
theorem tickSame_cases (s : State) :
    ((s.dur + 1).toNat = Config.nStall ∧ tickSame s = endOfCapture { s with dur := s.dur + 1 }) ∨
    ((s.dur + 1).toNat ≠ Config.nStall ∧ tickSame s = { s with dur := s.dur + 1 }) := by
  unfold tickSame
  split
  · exact .inl ⟨‹_›, rfl⟩
  · exact .inr ⟨‹_›, rfl⟩

/-- What one tick of CAPT with the other level can do. -/
theorem tickChange_cases (level : Level) (s : State) :
    ((s.idx + 1).toNat = Config.nTrans ∧
      tickChange level s = endOfCapture { closeRun s with ref := level, dur := 1, idx := s.idx + 1 }) ∨
    ((s.idx + 1).toNat ≠ Config.nTrans ∧
      tickChange level s = { closeRun s with ref := level, dur := 1, idx := s.idx + 1 }) := by
  unfold tickChange
  dsimp only
  split
  · exact .inl ⟨‹_›, rfl⟩
  · exact .inr ⟨‹_›, rfl⟩


@[simp] theorem tick_variant (level : Level) (s : State) : (tick level s).variant = s.variant := by 
  rcases tick_cases level s with ⟨_, h⟩ | ⟨_, h⟩ | ⟨_, h⟩ | ⟨_, h⟩ | ⟨_, h⟩ | ⟨_, _, h⟩ | ⟨_, _, h⟩ <;> rw [h]
  · rcases tickDrive_cases Config.tWake .req s with ⟨_, h⟩ | ⟨_, h⟩ <;> simp [h]
  · rcases tickDrive_cases Config.tReq .rel s with ⟨_, h⟩ | ⟨_, h⟩ <;> simp [h]
  · rcases tickDrive_cases Config.tRel .wait s with ⟨_, h⟩ | ⟨_, h⟩ <;> simp [h]
  · rcases tickWait_cases level s with ⟨_, h⟩ | ⟨_, _, h⟩ | ⟨_, _, h⟩ <;> simp [h]
  · rcases tickSame_cases s with ⟨_, h⟩ | ⟨_, h⟩ <;> simp [h]
  · rcases tickChange_cases level s with ⟨_, h⟩ | ⟨_, h⟩ <;> simp [h]
@[simp] theorem tick_pin (level : Level) (s : State) : (tick level s).pin = s.pin := by 
  rcases tick_cases level s with ⟨_, h⟩ | ⟨_, h⟩ | ⟨_, h⟩ | ⟨_, h⟩ | ⟨_, h⟩ | ⟨_, _, h⟩ | ⟨_, _, h⟩ <;> rw [h]
  · rcases tickDrive_cases Config.tWake .req s with ⟨_, h⟩ | ⟨_, h⟩ <;> simp [h]
  · rcases tickDrive_cases Config.tReq .rel s with ⟨_, h⟩ | ⟨_, h⟩ <;> simp [h]
  · rcases tickDrive_cases Config.tRel .wait s with ⟨_, h⟩ | ⟨_, h⟩ <;> simp [h]
  · rcases tickWait_cases level s with ⟨_, h⟩ | ⟨_, _, h⟩ | ⟨_, _, h⟩ <;> simp [h]
  · rcases tickSame_cases s with ⟨_, h⟩ | ⟨_, h⟩ <;> simp [h]
  · rcases tickChange_cases level s with ⟨_, h⟩ | ⟨_, h⟩ <;> simp [h]
@[simp] theorem tick_ovr (level : Level) (s : State) : (tick level s).ovr = s.ovr := by 
  rcases tick_cases level s with ⟨_, h⟩ | ⟨_, h⟩ | ⟨_, h⟩ | ⟨_, h⟩ | ⟨_, h⟩ | ⟨_, _, h⟩ | ⟨_, _, h⟩ <;> rw [h]
  · rcases tickDrive_cases Config.tWake .req s with ⟨_, h⟩ | ⟨_, h⟩ <;> simp [h]
  · rcases tickDrive_cases Config.tReq .rel s with ⟨_, h⟩ | ⟨_, h⟩ <;> simp [h]
  · rcases tickDrive_cases Config.tRel .wait s with ⟨_, h⟩ | ⟨_, h⟩ <;> simp [h]
  · rcases tickWait_cases level s with ⟨_, h⟩ | ⟨_, _, h⟩ | ⟨_, _, h⟩ <;> simp [h]
  · rcases tickSame_cases s with ⟨_, h⟩ | ⟨_, h⟩ <;> simp [h]
  · rcases tickChange_cases level s with ⟨_, h⟩ | ⟨_, h⟩ <;> simp [h]
@[simp] theorem tick_op (level : Level) (s : State) : (tick level s).op = s.op := by 
  rcases tick_cases level s with ⟨_, h⟩ | ⟨_, h⟩ | ⟨_, h⟩ | ⟨_, h⟩ | ⟨_, h⟩ | ⟨_, _, h⟩ | ⟨_, _, h⟩ <;> rw [h]
  · rcases tickDrive_cases Config.tWake .req s with ⟨_, h⟩ | ⟨_, h⟩ <;> simp [h]
  · rcases tickDrive_cases Config.tReq .rel s with ⟨_, h⟩ | ⟨_, h⟩ <;> simp [h]
  · rcases tickDrive_cases Config.tRel .wait s with ⟨_, h⟩ | ⟨_, h⟩ <;> simp [h]
  · rcases tickWait_cases level s with ⟨_, h⟩ | ⟨_, _, h⟩ | ⟨_, _, h⟩ <;> simp [h]
  · rcases tickSame_cases s with ⟨_, h⟩ | ⟨_, h⟩ <;> simp [h]
  · rcases tickChange_cases level s with ⟨_, h⟩ | ⟨_, h⟩ <;> simp [h]
@[simp] theorem tick_cfgOk (level : Level) (s : State) : (tick level s).cfgOk = s.cfgOk := by 
  rcases tick_cases level s with ⟨_, h⟩ | ⟨_, h⟩ | ⟨_, h⟩ | ⟨_, h⟩ | ⟨_, h⟩ | ⟨_, _, h⟩ | ⟨_, _, h⟩ <;> rw [h]
  · rcases tickDrive_cases Config.tWake .req s with ⟨_, h⟩ | ⟨_, h⟩ <;> simp [h]
  · rcases tickDrive_cases Config.tReq .rel s with ⟨_, h⟩ | ⟨_, h⟩ <;> simp [h]
  · rcases tickDrive_cases Config.tRel .wait s with ⟨_, h⟩ | ⟨_, h⟩ <;> simp [h]
  · rcases tickWait_cases level s with ⟨_, h⟩ | ⟨_, _, h⟩ | ⟨_, _, h⟩ <;> simp [h]
  · rcases tickSame_cases s with ⟨_, h⟩ | ⟨_, h⟩ <;> simp [h]
  · rcases tickChange_cases level s with ⟨_, h⟩ | ⟨_, h⟩ <;> simp [h]
@[simp] theorem tick_rdata (level : Level) (s : State) : (tick level s).rdata = s.rdata := by 
  rcases tick_cases level s with ⟨_, h⟩ | ⟨_, h⟩ | ⟨_, h⟩ | ⟨_, h⟩ | ⟨_, h⟩ | ⟨_, _, h⟩ | ⟨_, _, h⟩ <;> rw [h]
  · rcases tickDrive_cases Config.tWake .req s with ⟨_, h⟩ | ⟨_, h⟩ <;> simp [h]
  · rcases tickDrive_cases Config.tReq .rel s with ⟨_, h⟩ | ⟨_, h⟩ <;> simp [h]
  · rcases tickDrive_cases Config.tRel .wait s with ⟨_, h⟩ | ⟨_, h⟩ <;> simp [h]
  · rcases tickWait_cases level s with ⟨_, h⟩ | ⟨_, _, h⟩ | ⟨_, _, h⟩ <;> simp [h]
  · rcases tickSame_cases s with ⟨_, h⟩ | ⟨_, h⟩ <;> simp [h]
  · rcases tickChange_cases level s with ⟨_, h⟩ | ⟨_, h⟩ <;> simp [h]
@[simp] theorem tick_inputs (level : Level) (s : State) : (tick level s).inputs = s.inputs := by 
  rcases tick_cases level s with ⟨_, h⟩ | ⟨_, h⟩ | ⟨_, h⟩ | ⟨_, h⟩ | ⟨_, h⟩ | ⟨_, _, h⟩ | ⟨_, _, h⟩ <;> rw [h]
  · rcases tickDrive_cases Config.tWake .req s with ⟨_, h⟩ | ⟨_, h⟩ <;> simp [h]
  · rcases tickDrive_cases Config.tReq .rel s with ⟨_, h⟩ | ⟨_, h⟩ <;> simp [h]
  · rcases tickDrive_cases Config.tRel .wait s with ⟨_, h⟩ | ⟨_, h⟩ <;> simp [h]
  · rcases tickWait_cases level s with ⟨_, h⟩ | ⟨_, _, h⟩ | ⟨_, _, h⟩ <;> simp [h]
  · rcases tickSame_cases s with ⟨_, h⟩ | ⟨_, h⟩ <;> simp [h]
  · rcases tickChange_cases level s with ⟨_, h⟩ | ⟨_, h⟩ <;> simp [h]
@[simp] theorem tick_drawn (level : Level) (s : State) : (tick level s).drawn = s.drawn := by 
  rcases tick_cases level s with ⟨_, h⟩ | ⟨_, h⟩ | ⟨_, h⟩ | ⟨_, h⟩ | ⟨_, h⟩ | ⟨_, _, h⟩ | ⟨_, _, h⟩ <;> rw [h]
  · rcases tickDrive_cases Config.tWake .req s with ⟨_, h⟩ | ⟨_, h⟩ <;> simp [h]
  · rcases tickDrive_cases Config.tReq .rel s with ⟨_, h⟩ | ⟨_, h⟩ <;> simp [h]
  · rcases tickDrive_cases Config.tRel .wait s with ⟨_, h⟩ | ⟨_, h⟩ <;> simp [h]
  · rcases tickWait_cases level s with ⟨_, h⟩ | ⟨_, _, h⟩ | ⟨_, _, h⟩ <;> simp [h]
  · rcases tickSame_cases s with ⟨_, h⟩ | ⟨_, h⟩ <;> simp [h]
  · rcases tickChange_cases level s with ⟨_, h⟩ | ⟨_, h⟩ <;> simp [h]

/-! ### Host writes -/

@[simp] theorem decode_encode_eq (i : Instr) : decode (encode i) = .ok i := by cases i <;> rfl

theorem decode_eq_ok {d : Word} {i : Instr} (h : decode d = .ok i) : d = encode i := by
  unfold decode at h
  split at h <;> simp_all <;> subst h <;> exact BitVec.eq_of_toNat_eq (by simpa [encode] using ‹_›)

theorem decode_eq_error {d : Word} {e : DecodeError} (h : decode d = .error e) :
    e = .reservedWord d ∧ 4 ≤ d.toNat := by
  unfold decode at h
  split at h <;> simp_all
  omega

/-- A write to CMD runs one command, or raises IllegalCommand for a reserved word. -/
theorem writeCmd_cases (d : Word) (s : State) :
    (∃ i, d = encode i ∧ writeCmd d s = exec i s) ∨ (4 ≤ d.toNat ∧ writeCmd d s = reservedCommand s) := by
  cases h : decode d with
  | ok i => exact .inl ⟨i, decode_eq_ok h, by simp [writeCmd, h]⟩
  | error e =>
    obtain ⟨rfl, h4⟩ := decode_eq_error h
    exact .inr ⟨h4, by simp [writeCmd, h]⟩

/-- What one host write can do. -/
theorem hostWrite_cases (a : RegIndex) (d : Word) (s : State) :
    (a = 0 ∧ hostWrite a d s = writeCmd d s) ∨
    (a = 1 ∧ hostWrite a d s = writeCfg d s) ∨
    (a = 2 ∧ hostWrite a d s = .next (writeStatus d s)) ∨
    (∃ k : Fin 5, a.toNat = 4 + k.val ∧ hostWrite a d s = writeRaw k d s) ∨
    ((a = 3 ∨ 8 < a.toNat) ∧ hostWrite a d s = .next s) := by
  obtain ⟨n, hn, rfl⟩ : ∃ n, n < 16 ∧ a = BitVec.ofNat 4 n := ⟨a.toNat, a.isLt, by simp⟩
  interval_cases n
  · exact .inl ⟨rfl, rfl⟩
  · exact .inr (.inl ⟨rfl, rfl⟩)
  · exact .inr (.inr (.inl ⟨rfl, rfl⟩))
  · exact .inr (.inr (.inr (.inr ⟨.inl rfl, rfl⟩)))
  · exact .inr (.inr (.inr (.inl ⟨0, rfl, rfl⟩)))
  · exact .inr (.inr (.inr (.inl ⟨1, rfl, rfl⟩)))
  · exact .inr (.inr (.inr (.inl ⟨2, rfl, rfl⟩)))
  · exact .inr (.inr (.inr (.inl ⟨3, rfl, rfl⟩)))
  · exact .inr (.inr (.inr (.inl ⟨4, rfl, rfl⟩)))
  all_goals exact .inr (.inr (.inr (.inr ⟨.inr (by decide), rfl⟩)))

/-! ### The step -/

/-- With an event placed, the step takes it. -/
theorem step_of_placed {s : State} {e : Event} {rest : List Event} (h : s.inputs = e :: rest) :
    step s = takeEvent e { s with inputs := rest } := by simp [step, nextEvent, h]

/-- With no event placed, the step takes the next free one. -/
theorem step_of_free {s : State} (h : s.inputs = []) :
    step s = takeEvent (Config.envEvent s.drawn) { s with drawn := s.drawn + 1 } := by simp [step, nextEvent, h]

/-- Every step is one event, on the state that differs in the model's own queue and counter only. -/
theorem step_cases (s : State) :
    ∃ e q n, step s = takeEvent e { s with inputs := q, drawn := n } ∧
      (s.inputs = e :: q ∨ (s.inputs = [] ∧ q = [] ∧ e = Config.envEvent s.drawn ∧ n = s.drawn + 1)) := by
  cases h : s.inputs with
  | nil => exact ⟨_, [], _, by rw [step_of_free h, ← h], .inr ⟨rfl, rfl, rfl, rfl⟩⟩
  | cons e q => exact ⟨e, q, s.drawn, step_of_placed h, .inl rfl⟩

/-- The step on a placed tick. -/
theorem step_of_tick {s : State} {level : Level} {rest : List Event} (h : s.inputs = Event.tick level :: rest) :
    step s = .next (tick level (atAccess s rest)) := step_of_placed h

/-- The step on a placed host read. -/
theorem step_of_hostRead {s : State} {a : RegIndex} {rest : List Event} (h : s.inputs = Event.hostRead a :: rest) :
    step s = .next (hostRead a (atAccess s rest)) := step_of_placed h

/-- The step on a placed host write. -/
theorem step_of_hostWrite {s : State} {a : RegIndex} {d : Word} {ok : Bool} {rest : List Event}
    (h : s.inputs = Event.hostWrite a d ok :: rest) :
    step s = hostWrite a d { atAccess s rest with cfgOk := ok } := step_of_placed h

/-- The step on a placed reset. -/
theorem step_of_reset {s : State} {rest : List Event} (h : s.inputs = Event.reset :: rest) :
    step s = .next (resetBlock { s with inputs := rest }) := step_of_placed h

/-! ### Runs -/

@[simp] theorem runSteps_zero (s : State) : runSteps 0 s = .next s := rfl

/-- A run of one step more starts with that step. -/
theorem runSteps_of_step {s t : State} (h : step s = .next t) (n : Nat) :
    runSteps (n + 1) s = runSteps n t := by simp [runSteps, h]

/-- A run of a sum of steps is the second run from the state the first answers. -/
theorem runSteps_add {m n : Nat} {s t : State} (h : runSteps m s = .next t) :
    runSteps (m + n) s = runSteps n t := by
  induction m generalizing s with
  | zero => cases h; rw [Nat.zero_add]
  | succ m ih =>
    cases hst : step s with
    | next u =>
      rw [runSteps_of_step hst] at h
      rw [Nat.add_right_comm, runSteps_of_step hst]
      exact ih h
    | fault r => simp [runSteps, hst] at h
    | refused r => simp [runSteps, hst] at h

/-- `runSteps` is the run of the host's interface. -/
theorem runSteps_eq_run (n : Nat) (s : State) : runSteps n s = Host.Core.run Sys2Proof.core n s := by
  induction n generalizing s with
  | zero => rfl
  | succ n ih =>
    cases hst : step s with
    | next u =>
      have h' : Sys2Proof.core.step s = .next u := hst
      rw [runSteps_of_step hst, ih]
      simp only [Host.Core.run, h']
      rfl
    | fault r =>
      have h' : Sys2Proof.core.step s = .fault r := hst
      simp only [Host.Core.run, h', runSteps, hst]
      rfl
    | refused r =>
      have h' : Sys2Proof.core.step s = .refused r := hst
      simp only [Host.Core.run, h', runSteps, hst]
      rfl

end Sys2Proof.Machine
end

