-- ==== Sys2Proof/Laws/PerInstr.lean ====
section
/-! SUPPORT. Families of statements with one lemma per constructor of Instr. -/

/-- A command is well formed and its word is not a reserved one (spec/30_encoding.md R90 to R93). -/
def Sys2Proof.Laws.AssignedWords.Statement (i : Sys2Proof.Instr) : Prop :=
  i.wellFormed = true ∧ Sys2Proof.assignedWord (Sys2Proof.encode i) = true

theorem Sys2Proof.Laws.AssignedWords.nop : Sys2Proof.Laws.AssignedWords.Statement .nop := ⟨rfl, rfl⟩

theorem Sys2Proof.Laws.AssignedWords.read : Sys2Proof.Laws.AssignedWords.Statement .read := ⟨rfl, rfl⟩

theorem Sys2Proof.Laws.AssignedWords.sample : Sys2Proof.Laws.AssignedWords.Statement .sample := ⟨rfl, rfl⟩

theorem Sys2Proof.Laws.AssignedWords.interp : Sys2Proof.Laws.AssignedWords.Statement .interp := ⟨rfl, rfl⟩
end

