-- ==== Sys2Proof/Laws/Steps.lean ====
section
/-! SUPPORT. What one command and one step can do, said once: every claim about all steps is a case analysis over
`StepEffect`. -/

namespace Sys2Proof.Machine

/-- What a command written to CMD can do. -/
theorem exec_cases (i : Instr) (s : State) :
    (s.phase ≠ .idle ∧ exec i s = .next (overrun s)) ∨
    (s.phase = .idle ∧ ((i = .nop ∧ exec i s = .next s) ∨ (i = .read ∧ exec i s = .next (startOperation .read s)) ∨
      (i = .sample ∧ exec i s = .next (startOperation .sample s)) ∨
      (i = .interp ∧ exec i s = .next (interpret { prologue s with op := .interp })))) := by
  by_cases h : s.phase = .idle
  · refine .inr ⟨h, ?_⟩
    cases i
    · exact .inl ⟨rfl, whenIdle_of_idle (f := fun s => s) h⟩
    · exact .inr (.inl ⟨rfl, whenIdle_of_idle h⟩)
    · exact .inr (.inr (.inl ⟨rfl, whenIdle_of_idle h⟩))
    · exact .inr (.inr (.inr ⟨rfl, whenIdle_of_idle (f := fun s => interpret { prologue s with op := .interp }) h⟩))
  · refine .inl ⟨h, ?_⟩
    cases i
    · exact whenIdle_of_busy (f := fun s => s) h
    · exact whenIdle_of_busy h
    · exact whenIdle_of_busy h
    · exact whenIdle_of_busy (f := fun s => interpret { prologue s with op := .interp }) h

/-- The state in which a host write acts. -/
def atWrite (s : State) (ok : Bool) : State := { s with rdata := none, record := none, cfgOk := ok }

@[simp] theorem atWrite_variant (s : State) (ok : Bool) : (atWrite s ok).variant = s.variant := rfl
@[simp] theorem atWrite_pin (s : State) (ok : Bool) : (atWrite s ok).pin = s.pin := rfl
@[simp] theorem atWrite_done (s : State) (ok : Bool) : (atWrite s ok).done = s.done := rfl
@[simp] theorem atWrite_rdv (s : State) (ok : Bool) : (atWrite s ok).rdv = s.rdv := rfl
@[simp] theorem atWrite_ovr (s : State) (ok : Bool) : (atWrite s ok).ovr = s.ovr := rfl
@[simp] theorem atWrite_err (s : State) (ok : Bool) : (atWrite s ok).err = s.err := rfl
@[simp] theorem atWrite_bitcnt (s : State) (ok : Bool) : (atWrite s ok).bitcnt = s.bitcnt := rfl
@[simp] theorem atWrite_raw (s : State) (ok : Bool) : (atWrite s ok).raw = s.raw := rfl
@[simp] theorem atWrite_csum (s : State) (ok : Bool) : (atWrite s ok).csum = s.csum := rfl
@[simp] theorem atWrite_hum (s : State) (ok : Bool) : (atWrite s ok).hum = s.hum := rfl
@[simp] theorem atWrite_temp (s : State) (ok : Bool) : (atWrite s ok).temp = s.temp := rfl
@[simp] theorem atWrite_phase (s : State) (ok : Bool) : (atWrite s ok).phase = s.phase := rfl
@[simp] theorem atWrite_op (s : State) (ok : Bool) : (atWrite s ok).op = s.op := rfl
@[simp] theorem atWrite_tcnt (s : State) (ok : Bool) : (atWrite s ok).tcnt = s.tcnt := rfl
@[simp] theorem atWrite_dur (s : State) (ok : Bool) : (atWrite s ok).dur = s.dur := rfl
@[simp] theorem atWrite_idx (s : State) (ok : Bool) : (atWrite s ok).idx = s.idx := rfl
@[simp] theorem atWrite_ref (s : State) (ok : Bool) : (atWrite s ok).ref = s.ref := rfl
@[simp] theorem atWrite_cfgOk (s : State) (ok : Bool) : (atWrite s ok).cfgOk = ok := rfl
@[simp] theorem atWrite_rdata (s : State) (ok : Bool) : (atWrite s ok).rdata = none := rfl
@[simp] theorem atWrite_record (s : State) (ok : Bool) : (atWrite s ok).record = none := rfl
@[simp] theorem atWrite_inputs (s : State) (ok : Bool) : (atWrite s ok).inputs = s.inputs := rfl
@[simp] theorem atWrite_drawn (s : State) (ok : Bool) : (atWrite s ok).drawn = s.drawn := rfl

/-- Everything an event can do to the state `s` from which it was taken: `StepEffect s e t`. -/
inductive StepEffect (s : State) : Event → State → Prop
  | reset : StepEffect s .reset (resetBlock s)
  | writeUnderReset (a : RegIndex) (d : Word) (ok : Bool) :
      StepEffect s (.underReset (.hostWrite a d ok)) (resetBlock s)
  | tickUnderReset (level : Level) : StepEffect s (.underReset (.tick level)) (resetBlock s)
  | readUnderReset (a : RegIndex) : StepEffect s (.underReset (.hostRead a)) (hostRead a (resetBlock s))
  | hostRead (a : RegIndex) : StepEffect s (.hostRead a) (hostRead a (clearOutputs s))
  | tick (level : Level) : StepEffect s (.tick level) (tick level (clearOutputs s))
  | writeStatus (d : Word) (ok : Bool) : StepEffect s (.hostWrite 2 d ok) (writeStatus d (atWrite s ok))
  | discarded (a : RegIndex) (d : Word) (ok : Bool) (hs : s.phase ≠ .idle) (ha : guardedIndex a) :
      StepEffect s (.hostWrite a d ok) (overrun (atWrite s ok))
  | ignored (a : RegIndex) (d : Word) (ok : Bool) (ha : a.toNat = 3 ∨ 8 < a.toNat) :
      StepEffect s (.hostWrite a d ok) (atWrite s ok)
  | writeCfg (d : Word) (ok : Bool) (hs : s.phase = .idle) :
      StepEffect s (.hostWrite 1 d ok)
        { atWrite s ok with variant := variantOfBit (d.getLsbD 0), pin := d.extractLsb' 8 8 }
  | writeRaw (a : RegIndex) (k : Fin 5) (d : Word) (ok : Bool) (ha : a.toNat = 4 + k.val) (hs : s.phase = .idle) :
      StepEffect s (.hostWrite a d ok) { atWrite s ok with raw := setRawByte s.raw k (d.extractLsb' 0 8) }
  | nop (ok : Bool) (hs : s.phase = .idle) : StepEffect s (.hostWrite 0 0 ok) (atWrite s ok)
  | read (ok : Bool) (hs : s.phase = .idle) :
      StepEffect s (.hostWrite 0 1 ok) (startOperation .read (atWrite s ok))
  | sample (ok : Bool) (hs : s.phase = .idle) :
      StepEffect s (.hostWrite 0 2 ok) (startOperation .sample (atWrite s ok))
  | interp (ok : Bool) (hs : s.phase = .idle) :
      StepEffect s (.hostWrite 0 3 ok) (interpret { prologue (atWrite s ok) with op := .interp })
  | reserved (d : Word) (ok : Bool) (hs : s.phase = .idle) (hd : 4 ≤ d.toNat) :
      StepEffect s (.hostWrite 0 d ok) (raiseFailure .illegalCommand { prologue (atWrite s ok) with op := .none })

/-- Every event has one of the effects of `StepEffect`. -/
theorem stepEffect_of_takeEvent {e : Event} {s t : State} (h : takeEvent e s = .next t) : StepEffect s e t := by
  cases e with
  | reset => cases h; exact .reset
  | underReset x => cases x <;> cases h <;> constructor
  | access x =>
    cases x with
    | tick level => cases h; exact .tick level
    | hostRead a => cases h; exact .hostRead a
    | hostWrite a d ok =>
      change hostWrite a d (atWrite s ok) = _ at h
      rcases hostWrite_cases a d (atWrite s ok) with ⟨rfl, h'⟩ | ⟨rfl, h'⟩ | ⟨rfl, h'⟩ | ⟨k, hk, h'⟩ | ⟨ha, h'⟩ <;>
        rw [h'] at h
      · rcases writeCmd_cases d (atWrite s ok) with ⟨i, rfl, h'⟩ | ⟨hd, h'⟩ <;> rw [h'] at h
        · rcases exec_cases i (atWrite s ok) with ⟨hs, h'⟩ | ⟨hs, ⟨rfl, h'⟩ | ⟨rfl, h'⟩ | ⟨rfl, h'⟩ | ⟨rfl, h'⟩⟩ <;>
            rw [h'] at h <;> cases h
          · exact .discarded _ _ _ hs (.inl rfl)
          · exact .nop ok hs
          · exact .read ok hs
          · exact .sample ok hs
          · exact .interp ok hs
        · rcases whenIdle_cases h with ⟨hs, rfl⟩ | ⟨hs, rfl⟩
          · exact .reserved _ _ hs hd
          · exact .discarded _ _ _ hs (.inl rfl)
      · rcases whenIdle_cases h with ⟨hs, rfl⟩ | ⟨hs, rfl⟩
        · exact .writeCfg _ _ hs
        · exact .discarded _ _ _ hs (.inr (.inl rfl))
      · cases h; exact .writeStatus d ok
      · rcases whenIdle_cases h with ⟨hs, rfl⟩ | ⟨hs, rfl⟩
        · exact .writeRaw _ _ _ _ hk hs
        · refine .discarded _ _ _ hs ?_
          obtain rfl : a = BitVec.ofNat 4 (4 + k.val) := BitVec.eq_of_toNat_eq (by simp [hk]; omega)
          clear hk h h' hs
          fin_cases k <;> decide
      · cases h; exact .ignored _ _ _ (ha.imp (by rintro rfl; rfl) id)

/-- A step with an event placed has one of the effects of that event. -/
theorem stepEffect_of_placed {s t : State} {e : Event} {rest : List Event} (hn : NextIs s e rest)
    (h : step s = .next t) : StepEffect { s with inputs := rest } e t :=
  stepEffect_of_takeEvent (by rw [← step_of_placed hn, h])

/-- Any step, placed or free, has one of the effects of some event, on a state that differs from `s` in the model's own
queue and counter only. -/
theorem stepEffect_of_step {s t : State} (h : step s = .next t) :
    ∃ e q n, StepEffect { s with inputs := q, drawn := n } e t := by
  obtain ⟨e, q, n, he, _⟩ := step_cases s
  exact ⟨e, q, n, stepEffect_of_takeEvent (by rw [← he, h])⟩

end Sys2Proof.Machine
end

