-- ==== Sys2Proof/Laws/Runs.lean ====
section
/-! SUPPORT. Runs over placed ticks as folds over their samples, and the functions of samples of Safety.lean one sample at
a time. -/

namespace Sys2Proof.Machine

/-- `s` with its placed events replaced. -/
def withInputs (q : List Event) (s : State) : State := { s with inputs := q }

/-- The placed events play no part in what the block does. -/
theorem interpret_withInputs (q) (s : State) : interpret (withInputs q s) = withInputs q (interpret s) := by
  by_cases h : checksum s.raw = s.raw.b4
  · rw [interpret_of_match h, interpret_of_match (by exact h)]; rfl
  · rw [interpret_of_mismatch h, interpret_of_mismatch (by exact h)]; rfl

theorem endOfCapture_withInputs (q) (s : State) : endOfCapture (withInputs q s) = withInputs q (endOfCapture s) := by
  unfold endOfCapture
  simp only [show (withInputs q s).bitcnt = s.bitcnt from rfl, show (withInputs q s).op = s.op from rfl, interpret_withInputs]
  split
  · rfl
  · split_ifs <;> rfl

theorem pushBit_withInputs (b q) (s : State) : pushBit b (withInputs q s) = withInputs q (pushBit b s) := by
  unfold pushBit; by_cases h : s.bitcnt.toNat < Config.frameBits
  · rw [dif_pos h, dif_pos (by exact h)]; rfl
  · rw [dif_neg h, dif_neg (by exact h)]; rfl

theorem closeRun_withInputs (q) (s : State) : closeRun (withInputs q s) = withInputs q (closeRun s) := by
  unfold closeRun; dsimp only
  rw [show (withInputs q s).idx = s.idx from rfl]
  split
  · exact pushBit_withInputs (bitOfRun s.dur) q { s with record := some { index := s.idx, level := s.ref, dur := s.dur } }
  · rfl

theorem tickChange_withInputs (l q) (s : State) : tickChange l (withInputs q s) = withInputs q (tickChange l s) := by
  unfold tickChange; dsimp only
  rw [show (withInputs q s).idx = s.idx from rfl, closeRun_withInputs]
  split
  · exact endOfCapture_withInputs q { closeRun s with ref := l, dur := 1, idx := s.idx + 1 }
  · rfl

theorem tickSame_withInputs (q) (s : State) : tickSame (withInputs q s) = withInputs q (tickSame s) := by
  unfold tickSame
  rw [show (withInputs q s).dur = s.dur from rfl]
  split
  · exact endOfCapture_withInputs q { s with dur := s.dur + 1 }
  · rfl

theorem tick_withInputs (l q) (s : State) : tick l (withInputs q s) = withInputs q (tick l s) := by
  unfold tick
  rw [show (withInputs q s).phase = s.phase from rfl, show (withInputs q s).ref = s.ref from rfl]
  split
  · rfl
  · unfold tickDrive; rw [show (withInputs q s).tcnt = s.tcnt from rfl]; split_ifs <;> rfl
  · unfold tickDrive; rw [show (withInputs q s).tcnt = s.tcnt from rfl]; split_ifs <;> rfl
  · unfold tickDrive; rw [show (withInputs q s).tcnt = s.tcnt from rfl]; split_ifs <;> rfl
  · unfold tickWait; rw [show (withInputs q s).tcnt = s.tcnt from rfl]; split
    · rfl
    · split_ifs <;> rfl
  · split
    · exact tickSame_withInputs q s
    · exact tickChange_withInputs l q s

/-- One tick of the sequencer as a function of the state alone. -/
def tickStep (s : State) (l : Level) : State := tick l (clearOutputs s)

theorem tickStep_withInputs (q s l) : tickStep (withInputs q s) l = withInputs q (tickStep s l) := tick_withInputs l q (clearOutputs s)

/-- A run over placed ticks is the fold of `tickStep`. -/
theorem runSteps_ticks (samples : List Level) : ∀ (rest : List Event) (s : State), s.inputs = samples.map Event.tick ++ rest →
    runSteps samples.length s = .next (withInputs rest (samples.foldl tickStep s)) := by
  induction samples with
  | nil => intro rest s h; simp at h; subst h; rfl
  | cons c cs ih =>
    intro rest s h
    simp at h
    have h1 := step_of_tick h
    have h2 : step s = .next (withInputs (cs.map Event.tick ++ rest) (tickStep s c)) := by
      rw [h1]; exact congrArg _ (tick_withInputs c _ (clearOutputs s))
    have h3 := ih rest (withInputs (cs.map Event.tick ++ rest) (tickStep s c)) rfl
    rw [List.length_cons, runSteps_of_step h2, h3]
    have : ∀ q (u : State) (l : List Level), withInputs rest (l.foldl tickStep (withInputs q u)) = withInputs rest (l.foldl tickStep u) := by
      intro q u l
      induction l generalizing q u with
      | nil => rfl
      | cons a l ih => simp only [List.foldl_cons, tickStep_withInputs, ih]
    rw [this]; rfl

/-- The same for the first `n` of the ticks. -/
theorem runSteps_ticks_take (samples : List Level) (n : Nat) (hn : n ≤ samples.length) (rest : List Event) (s : State)
   (h : s.inputs = samples.map Event.tick ++ rest) :
    runSteps n s = .next (withInputs ((samples.drop n).map Event.tick ++ rest) ((samples.take n).foldl tickStep s)) := by
  have := runSteps_ticks (samples.take n) ((samples.drop n).map Event.tick ++ rest) s (by
    rw [h, ← List.append_assoc, ← List.map_append, List.take_append_drop])
  rwa [List.length_take, Nat.min_eq_left hn] at this

/-- Fewer samples than WAKE, REQ or REL still lacks: they are counted. -/
theorem foldl_tickStep_of_short (p p' : Phase) (L : Nat) (hL : L < 2 ^ 18)
    (hp : ∀ l (s : State), s.phase = p → tick l s = tickDrive L p' s) (samples : List Level) :
    ∀ s : State, s.phase = p → s.rdata = none → s.record = none → s.tcnt.toNat + samples.length < L →
      samples.foldl tickStep s = { s with tcnt := s.tcnt + BitVec.ofNat 18 samples.length } := by
  induction samples with
  | nil => intro s _ _ _ _; simp
  | cons c cs ih =>
    intro s h h1 h2 h3
    simp only [List.length_cons] at h3
    have ht : (s.tcnt + 1).toNat = s.tcnt.toNat + 1 := by
      have := s.tcnt.isLt; simp; omega
    have : tickStep s c = { s with tcnt := s.tcnt + 1 } := by
      unfold tickStep; rw [hp _ _ (by exact h)]
      unfold tickDrive; rw [if_neg (by simp only [clearOutputs]; omega)]
      simp [clearOutputs, h1, h2]
    rw [List.foldl_cons, this, ih _ (by exact h) (by exact h1) (by exact h2) (by show (s.tcnt+1).toNat + _ < _; omega)]
    simp only [List.length_cons]
    congr 1
    show s.tcnt + 1 + _ = _
    apply BitVec.eq_of_toNat_eq
    simp [BitVec.toNat_add]
    omega

/-- As many samples as WAKE, REQ or REL takes: the next phase. -/
theorem foldl_tickStep_of_full (p p' : Phase) (L : Nat) (hL : L < 2 ^ 18)
    (hp : ∀ l (s : State), s.phase = p → tick l s = tickDrive L p' s) (samples : List Level) (hl : samples.length = L) (h0 : 0 < L)
    (s : State) (h : s.phase = p) (h1 : s.rdata = none) (h2 : s.record = none) (h3 : s.tcnt = 0) :
      samples.foldl tickStep s = { s with tcnt := 0, phase := p' } := by
  obtain rfl | ⟨cs, c, rfl⟩ := List.eq_nil_or_concat samples
  · simp at hl; omega
  · simp only [List.concat_eq_append, List.length_append, List.length_cons, List.length_nil] at hl ⊢
    rw [List.foldl_append, foldl_tickStep_of_short p p' L hL hp cs s h h1 h2 (by rw [h3]; simp; omega)]
    simp only [List.foldl_cons, List.foldl_nil]
    unfold tickStep; rw [hp _ _ (by exact h)]
    unfold tickDrive; rw [if_pos (by simp [clearOutputs, h3, BitVec.toNat_add]; omega)]
    simp [clearOutputs, h1, h2]

/-- The level of the run in progress at the end of the samples, `ref` where there are none. -/
def openLevel : Level → List Level → Level
  | ref, [] => ref
  | _, c :: cs => openLevel c cs

theorem openLevel_append (x) : ∀ (c : List Level) ref, openLevel ref (c ++ [x]) = x
  | [], _ => rfl
  | _ :: cs, _ => openLevel_append x cs _

/-- One more sample ends the run in progress exactly when its level differs. -/
theorem closedRuns_append (x) : ∀ (c : List Level) ref n, closedRuns ref n (c ++ [x]) =
    if x = openLevel ref c then closedRuns ref n c else closedRuns ref n c ++ [openRun ref n c] := by
  intro c
  induction c with
  | nil => intro ref n; simp [closedRuns, openLevel, openRun]; rfl
  | cons a c ih =>
    intro ref n
    simp only [List.cons_append, closedRuns, openLevel, openRun]
    by_cases h : a = ref
    · subst h; simp [ih]
    · simp only [h, if_false, ih]; split <;> simp

/-- One more sample lengthens the run in progress or starts a new one. -/
theorem openRun_append (x) : ∀ (c : List Level) ref n, openRun ref n (c ++ [x]) =
    if x = openLevel ref c then openRun ref n c + 1 else 1 := by
  intro c
  induction c with
  | nil => intro ref n; simp [openRun, openLevel]; rfl
  | cons a c ih =>
    intro ref n
    simp only [List.cons_append, openRun, openLevel]
    by_cases h : a = ref
    · subst h; simp [ih]
    · simp only [h, if_false, ih]

/-- The bit of one more ended run. -/
theorem dataBits_append (m : Nat) : ∀ (ns : List Nat) i, dataBits i (ns ++ [m]) =
    dataBits i ns ++ (if 4 ≤ i + ns.length ∧ (i + ns.length) % 2 = 0 then [decide (20 < m)] else []) := by
  intro ns
  induction ns with
  | nil => intro i; simp [dataBits]
  | cons a ns ih =>
    intro i
    simp only [List.cons_append, dataBits, ih, List.length_cons, List.append_assoc]
    rw [show i + 1 + ns.length = i + (ns.length + 1) by omega]

/-- The value of `n` bits shifted into `v` is below `(v + 1) * 2 ^ n`. -/
theorem foldl_bits_lt (bs : List Bool) : ∀ v, bs.foldl (fun v b => 2 * v + b.toNat) v < (v + 1) * 2 ^ bs.length := by
  induction bs with
  | nil => intro v; simp
  | cons b bs ih =>
    intro v
    simp only [List.foldl_cons, List.length_cons, Nat.pow_succ]
    have := ih (2 * v + b.toNat)
    have hb : b.toNat ≤ 1 := by cases b <;> simp
    calc _ < _ := this
      _ ≤ (2 * v + 2) * 2 ^ bs.length := Nat.mul_le_mul_right _ (by omega)
      _ = _ := by ring

/-- One more bit is shifted into the byte of its index. -/
theorem packedByte_append (bs : List Bool) (b : Bool) (k : Nat) :
    packedByte (bs ++ [b]) k = if bs.length / 8 = k then (packedByte bs k * 2 + b.toNat) % 256 else packedByte bs k := by
  unfold packedByte
  split <;> rename_i h
  · have h1 : 8 * k ≤ bs.length := by omega
    have h2 : (bs.drop (8 * k)).length < 8 := by rw [List.length_drop]; omega
    rw [List.drop_append_of_le_length h1, List.take_of_length_le (by rw [List.length_append]; simp at h2 ⊢; omega), List.take_of_length_le (by omega), List.foldl_append]
    simp only [List.foldl_cons, List.foldl_nil]
    have := foldl_bits_lt (bs.drop (8 * k)) 0
    have h3 : 2 ^ (bs.drop (8 * k)).length ≤ 2 ^ 7 := Nat.pow_le_pow_right (by norm_num) (by omega)
    have hb : b.toNat ≤ 1 := by cases b <;> simp
    omega
  · by_cases h1 : bs.length < 8 * k
    · rw [List.drop_eq_nil_of_le (by simp; omega), List.drop_eq_nil_of_le (by omega)]
    · rw [List.drop_append_of_le_length (by omega), List.take_append_of_le_length (by rw [List.length_drop]; omega)]

end Sys2Proof.Machine
end

