-- ==== Sys2Proof/Tests/Slice0.lean ====
section
/-! SUPPORT. Tests against the words and vectors of the spec, and for each statement with hypotheses a concrete case that
meets them. -/

namespace Sys2Proof.Tests

open Sys2Proof Sys2Proof.Machine

/-! ### Decoding and well-formedness -/

/-- spec/30_encoding.md R91, opcode 0x0000. -/
theorem test_decode_nop : decode 0b0000000000000000 = .ok .nop := by decide

/-- spec/30_encoding.md R91, opcode 0x0001. -/
theorem test_decode_read : decode 0b0000000000000001 = .ok .read := by decide

/-- spec/30_encoding.md R91, opcode 0x0002. -/
theorem test_decode_sample : decode 0b0000000000000010 = .ok .sample := by decide

/-- spec/30_encoding.md R91, opcode 0x0003. -/
theorem test_decode_interp : decode 0b0000000000000011 = .ok .interp := by decide

/-- spec/30_encoding.md R92: the first and the last reserved word, and READ's word with a high bit set. -/
theorem test_decode_reserved : decode 0x0004 = .error (.reservedWord 0x0004) ∧
    decode 0xFFFF = .error (.reservedWord 0xFFFF) ∧ decode 0x0101 = .error (.reservedWord 0x0101) := by decide

/-- The table's numbering of bits: one 16-bit word. -/
theorem test_decodeTableWord : decodeTableWord 16 0x0003 = some .interp ∧ decodeTableWord 16 0x0103 = none := by decide

/-- Well-formedness: every command is well formed; an ill-formed word, reserved by R92, is refused at both ends of its
range. -/
theorem test_wellFormed : Instr.wellFormed .nop = true ∧ Instr.wellFormed .read = true ∧
    Instr.wellFormed .sample = true ∧ Instr.wellFormed .interp = true ∧ assignedWord 0x0003 = true ∧
    assignedWord 0x0004 = false ∧ assignedWord 0xFFFF = false := by decide

/-! ### One step each, the values from spec/95_test_vectors.md -/

/-- The next state of an outcome, if it has one. -/
def nextOf (o : Host.Outcome State Fault Refusal) : Option State :=
  match o with
  | .next s => some s
  | .fault _ => none
  | .refused _ => none

/-- The reset state about to take the events `es`. -/
def awaiting (es : List Event) : State := { State.reset with inputs := es }

/-- The state after one event `e`, from `s`. -/
def after (s : State) (e : Event) : Option State := nextOf (step { s with inputs := [e] })

/-- An idle block of variant `v` that holds the frame of five bytes. -/
def holding (v : Variant) (b0 b1 b2 b3 b4 : Byte) : State :=
  { State.reset with variant := v, raw := { b0 := b0, b1 := b1, b2 := b2, b3 := b3, b4 := b4 } }

/-- spec/42_composite_control.md R182's example: NOP after a success leaves STATUS 0x0006 and CMD 1. -/
theorem test_nop : ((after { State.reset with done := true, rdv := true, op := .read } (.hostWrite 0 0 true)).map
    fun t => (statusWord t, readReg 0 t)) = some (0x0006, 1) := by decide

/-- spec/20_memory.md R64: NOP while busy sets OVR: STATUS in WAKE is 0x0109. -/
theorem test_nop_busy : ((after { State.reset with phase := .wake } (.hostWrite 0 0 true)).map statusWord)
    = some 0x0109 := by decide

/-- spec/42_composite_control.md R184's example: READ without `cfg_ok` gives STATUS 0x0042 and CMD 1. -/
theorem test_read_not_configured : ((after State.reset (.hostWrite 0 1 false)).map
    fun t => (statusWord t, readReg 0 t)) = some (0x0042, 1) := by decide

/-- spec/40_decoder.md R121: READ accepted: STATUS 0x0101, the line driven high. -/
theorem test_read_accepted : ((after State.reset (.hostWrite 0 1 true)).map
    fun t => (statusWord t, lineOe t, lineOut t)) = some (0x0101, true, true) := by decide

/-- spec/40_decoder.md R121: SAMPLE accepted clears the buffer and starts the count of ticks. -/
theorem test_sample_accepted : ((after { holding .a 1 2 3 4 5 with tcnt := 7 } (.hostWrite 0 2 true)).map
    fun t => (t.raw, t.tcnt, readReg 0 t)) = some (rawZero, 0, 2) := by decide

/-- spec/40_decoder.md R129's example, under SAMPLE: run 4 of 40 high samples gives the record (4, 1, 40) and bit 1. -/
theorem test_sample_run : ((after { State.reset with phase := .capt, op := .sample, idx := 4, ref := true, dur := 40 }
    (.tick false)).map fun t => (t.record, t.raw.b0, t.dur, t.idx))
    = some (some { index := 4, level := true, dur := 40 }, 1, 1, 5) := by decide

/-- spec/41_interpreter.md R160's example: 53.8 %RH and 26.1 °C. -/
theorem test_interp_b : ((after (holding .b 0x02 0x1A 0x01 0x05 0x22) (.hostWrite 0 3 true)).map
    fun t => (statusWord t, t.hum, t.temp, t.csum)) = some (0x0006, 538, 261, 0x22) := by decide

/-- spec/41_interpreter.md R162's example: STATUS 0x0032. -/
theorem test_interp_mismatch : ((after (holding .b 0x02 0x1A 0x01 0x05 0x23) (.hostWrite 0 3 true)).map
    fun t => (statusWord t, t.hum, t.temp, t.csum)) = some (0x0032, 0, 0, 0x22) := by decide

/-- spec/41_interpreter.md R166: 0x800A is -1.0 °C. -/
theorem test_negative_temperature : (temperature .b { b0 := 0, b1 := 0, b2 := 0x80, b3 := 0x0A, b4 := 0 }).toInt
    = -10 := by decide

/-- spec/42_composite_control.md R183's example: STATUS 0x0052 and CMD 0. -/
theorem test_reserved : ((after State.reset (.hostWrite 0 4 true)).map fun t => (statusWord t, readReg 0 t))
    = some (0x0052, 0) := by decide

/-- spec/10_state.md R22: CFG keeps bits 0 and 15:8 of 0xA5FF. -/
theorem test_cfg : ((after State.reset (.hostWrite 1 0xA5FF true)).map fun t => readReg 1 t) = some 0xA501 := by decide

/-! ### Witnesses: the hypotheses of each statement can be met -/

theorem witness_DecodeAndEncodeAgree : Instr.interp.wellFormed = true := by decide

theorem witness_StepRunsDecodedCommand :
    NextIs (awaiting [.hostWrite 0 3 true, .tick true]) (.hostWrite 0 3 true) [.tick true] ∧ decode 3 = .ok .interp ∧
      Instr.interp.wellFormed = true := by decide

theorem witness_UnplacedEventIsFree : ∃ e, State.reset.inputs = [] ∧ Config.envEvent State.reset.drawn = e :=
  ⟨_, rfl, rfl⟩

/-- Both cases: idle, and busy. -/
theorem witness_NopChangesNothing : State.reset.phase = .idle ∧
    ({ State.reset with phase := .capt } : State).phase ≠ .idle := by decide

theorem witness_AcceptedReadOrSampleStartsHandshake : (Instr.read = .read ∧ Op.read = .read) ∧
    (Instr.sample = .sample ∧ Op.sample = .sample) ∧ State.reset.phase = .idle ∧ State.reset.cfgOk = true := by decide

theorem witness_MissingConfigurationFailsAtAcceptance : (Instr.read = .read ∧ Op.read = .read) ∧
    (Instr.sample = .sample ∧ Op.sample = .sample) ∧
    ({ State.reset with cfgOk := false } : State).phase = .idle ∧
    ({ State.reset with cfgOk := false } : State).cfgOk = false := by decide

/-- A frame with a match for each clause: variant A, and variant B with its temperature byte at 0x7F and at 0x80. -/
theorem witness_InterpScalesMatchingFrame :
    (∀ s ∈ [holding .a 0xFF 0 0x80 0 0x7F, holding .b 0 0 0x7F 0xFF 0x7E, holding .b 0 0 0x80 0 0x80],
      s.phase = .idle ∧
        (s.raw.b0.toNat + s.raw.b1.toNat + s.raw.b2.toNat + s.raw.b3.toNat) % 256 = s.raw.b4.toNat) ∧
      (holding .b 0 0 0x7F 0xFF 0x7E).raw.b2.toNat < 128 ∧ 128 ≤ (holding .b 0 0 0x80 0 0x80).raw.b2.toNat := by decide

theorem witness_InterpRejectsMismatchedFrame : (holding .b 0x02 0x1A 0x01 0x05 0x23).phase = .idle ∧
    (0x02 + 0x1A + 0x01 + 0x05) % 256 ≠ (holding .b 0x02 0x1A 0x01 0x05 0x23).raw.b4.toNat := by decide

/-- The largest humidity and the most negative temperature. -/
theorem witness_VariantBRoundTrip :
    let s := holding .b 0xFF 0xFF 0xFF 0xFF 0xFC
    s.phase = .idle ∧ s.variant = .b ∧ 65535 < 65536 ∧ 32767 < 32768 ∧ s.raw.b0.toNat = 65535 / 256 ∧
      s.raw.b1.toNat = 65535 % 256 ∧ s.raw.b2.toNat = true.toNat * 128 + 32767 / 256 ∧
      s.raw.b3.toNat = 32767 % 256 ∧
      s.raw.b4.toNat = (s.raw.b0.toNat + s.raw.b1.toNat + s.raw.b2.toNat + s.raw.b3.toNat) % 256 := by decide

/-- The first and the last reserved word. -/
theorem witness_ReservedWordIsIllegalCommand :
    NextIs (awaiting [.hostWrite 0 0x0004 false]) (.hostWrite 0 0x0004 false) [] ∧ 4 ≤ (0x0004 : Word).toNat ∧
      NextIs (awaiting [.hostWrite 0 0xFFFF true]) (.hostWrite 0 0xFFFF true) [] ∧ 4 ≤ (0xFFFF : Word).toNat ∧
      (awaiting [.hostWrite 0 0x0004 false]).phase = .idle := by decide

/-- The guarded indices, each on a busy block. -/
theorem witness_BusyBlockDiscardsGuardedWrites : ∀ a ∈ ([0, 1, 4, 5, 6, 7, 8] : List RegIndex),
    NextIs { awaiting [.hostWrite a 1 true] with phase := .wake } (.hostWrite a 1 true) [] ∧ guardedIndex a ∧
      ({ awaiting [.hostWrite a 1 true] with phase := .wake } : State).phase ≠ .idle := by decide

/-- Every index, so every clause. -/
theorem witness_HostWriteFollowsTable : ∀ a : RegIndex,
    NextIs (awaiting [.hostWrite a 0xFFFF true]) (.hostWrite a 0xFFFF true) [] := fun _ => rfl

/-- Every index, so every clause. -/
theorem witness_HostReadAnswersMap : ∀ a : RegIndex, NextIs (awaiting [.hostRead a]) (.hostRead a) [] := fun _ => rfl

/-- CFG, and the first and the last RAW register. -/
theorem witness_IdleWriteIsReadBack : ∀ a ∈ ([1, 4, 8] : List RegIndex),
    (awaiting [.hostWrite a 0xFFFF true, .hostRead a]).inputs = [.hostWrite a 0xFFFF true, .hostRead a] ∧
      (awaiting [.hostWrite a 0xFFFF true, .hostRead a]).phase = .idle ∧
      (a = 1 ∨ (4 ≤ a.toNat ∧ a.toNat ≤ 8)) := by decide

/-- The last tick of each phase. -/
theorem witness_HandshakeTickCounts :
    NextIs { awaiting [.tick false] with phase := .wake, tcnt := 249999 } (.tick false) [] ∧
      NextIs { awaiting [.tick false] with phase := .req, tcnt := 19999 } (.tick false) [] ∧
      NextIs { awaiting [.tick false] with phase := .rel, tcnt := 39 } (.tick false) [] := by decide

/-- A READ right after its acceptance. -/
def accepted (es : List Event) : State := { awaiting es with phase := .wake, op := .read }

theorem accepted_samples (n : Nat) : ∃ (s : State) (samples : List Level),
    s.phase = .wake ∧ s.tcnt = 0 ∧ samples.length = n ∧ s.inputs = samples.map Event.tick ++ [] :=
  ⟨accepted ((List.replicate n true).map Event.tick ++ []), List.replicate n true, rfl, rfl, List.length_replicate, rfl⟩

theorem witness_HandshakeTakes270040Ticks : ∃ (s : State) (samples : List Level),
    s.phase = .wake ∧ s.tcnt = 0 ∧ samples.length = 270040 ∧ s.inputs = samples.map Event.tick ++ [] :=
  accepted_samples 270040

/-- A low sample, the 31999th and the 32000th high sample. -/
theorem witness_WaitTickLooksForLow :
    NextIs { awaiting [.tick false] with phase := .wait, tcnt := 31999 } (.tick false) [] ∧
      NextIs { awaiting [.tick true] with phase := .wait, tcnt := 31998 } (.tick true) [] ∧
      ((31998 : BitVec 18) + 1).toNat ≠ 32000 ∧
      NextIs { awaiting [.tick true] with phase := .wait, tcnt := 31999 } (.tick true) [] ∧
      ((31999 : BitVec 18) + 1).toNat = 32000 := by decide

theorem waiting_samples (n : Nat) : ∃ s : State,
    s.phase = .wait ∧ s.tcnt = 0 ∧ s.inputs = List.replicate n (Event.tick true) ++ [] :=
  ⟨{ awaiting (List.replicate n (Event.tick true) ++ []) with phase := .wait }, rfl, rfl, rfl⟩

theorem witness_HighLineTimesOutAtTick32000 : ∃ s : State,
    s.phase = .wait ∧ s.tcnt = 0 ∧ s.inputs = List.replicate 32000 (Event.tick true) ++ [] := waiting_samples 32000

/-- A capture in its run `idx` with `dur` samples of `ref`, under the command `o`, with `n` bits collected, about to take
one tick. -/
def capturing (o : Op) (idx : BitVec 14) (dur : BitVec 10) (n : BitVec 13) (level : Level) : State :=
  { awaiting [.tick level] with phase := .capt, op := o, idx := idx, ref := idx.toNat % 2 == 0, dur := dur, bitcnt := n }

/-- The 999th and the 1000th equal sample. -/
theorem witness_EqualSampleLengthensRun : ∀ d ∈ ([998, 999] : List (BitVec 10)),
    (capturing .read 4 d 0 true).phase = .capt ∧ true = (capturing .read 4 d 0 true).ref ∧
      NextIs (capturing .read 4 d 0 true) (.tick true) [] := by decide

/-- The first selected run, the one before it, and the last run. -/
theorem witness_DifferentSampleEndsRun :
    ((capturing .read 3 999 0 true).phase = .capt ∧ true ≠ (capturing .read 3 999 0 true).ref ∧
      NextIs (capturing .read 3 999 0 true) (.tick true) []) ∧
    ((capturing .read 4 21 0 false).phase = .capt ∧ false ≠ (capturing .read 4 21 0 false).ref ∧
      NextIs (capturing .read 4 21 0 false) (.tick false) []) ∧
    ((capturing .read 9999 1 0 true).phase = .capt ∧ true ≠ (capturing .read 9999 1 0 true).ref ∧
      NextIs (capturing .read 9999 1 0 true) (.tick true) []) :=
  ⟨⟨rfl, by decide, rfl⟩, ⟨rfl, by decide, rfl⟩, rfl, by decide, rfl⟩

/-- 38 and 39 bits; SAMPLE and READ. -/
theorem witness_GateThenResult : (capturing .read 4 0 38 true).bitcnt.toNat < 39 ∧
    39 ≤ (capturing .sample 4 0 39 true).bitcnt.toNat ∧ (capturing .sample 4 0 39 true).op = .sample ∧
    39 ≤ (capturing .read 4 0 39 true).bitcnt.toNat ∧ (capturing .read 4 0 39 true).op = .read := by decide

theorem witness_IdleTickChangesNothing : (awaiting [.tick false]).phase = .idle ∧
    NextIs (awaiting [.tick false]) (.tick false) [] := by decide

theorem witness_SampleMattersOnlyInWaitAndCapture :
    let s : State := { awaiting [.tick true] with phase := .rel, tcnt := 39 }
    s.phase ≠ .wait ∧ s.phase ≠ .capt ∧ NextIs s (.tick true) [] := by decide

/-- `Reset`, and each access that arrives while `rst` is 1, on a busy block. -/
theorem witness_ResetEventClearsBlock : ∀ e ∈ ([.reset, .underReset (.tick true), .underReset (.hostWrite 0 1 true),
    .underReset (.hostRead 2)] : List Event), NextIs { awaiting [e] with phase := .req } e [] := by decide

theorem witness_PhaseFollowsControlFlowGraph :
    NextIs (capturing .read 9999 5 0 true) (.tick true) [] ∧ true ≠ (capturing .read 9999 5 0 true).ref ∧
      ((9999 : BitVec 14) + 1).toNat = 10000 := by decide

/-- A write to CFG while idle changes it. -/
theorem witness_OnlyIdleHostWriteOrResetChangesCfg :
    NextIs (awaiting [.hostWrite 1 1 true]) (.hostWrite 1 1 true) [] ∧
      ∃ t, step (awaiting [.hostWrite 1 1 true]) = .next t ∧ t.variant ≠ State.reset.variant :=
  ⟨rfl, _, rfl, by decide⟩

/-- A guarded write on a busy block, and the write that clears OVR. -/
theorem witness_OverrunFlagIsSticky :
    (∃ t, step { awaiting [.hostWrite 8 0 true] with phase := .wake } = .next t) ∧ guardedIndex 8 ∧
      ∃ t, step { awaiting [.hostWrite 2 8 true] with ovr := true } = .next t := ⟨⟨_, rfl⟩, by decide, _, rfl⟩

theorem witness_IdleResultsAreStable :
    NextIs (awaiting [.hostWrite 4 7 true]) (.hostWrite 4 7 true) [] ∧
      (∃ t, step (awaiting [.hostWrite 4 7 true]) = .next t) ∧ (awaiting [.hostWrite 4 7 true]).phase = .idle ∧
      Event.hostWrite 4 7 true ≠ .reset ∧ (∀ x, Event.hostWrite 4 7 true ≠ .underReset x) ∧
      (∀ d ok, Event.hostWrite 4 7 true = .hostWrite 0 d ok → d = 0) :=
  ⟨rfl, ⟨_, rfl⟩, rfl, by simp, by simp, by simp⟩

/-- The error that a state's next event raises, where it has none before. -/
def newError (s : State) : Option Failure := if s.err = none then (nextOf (step s)).bind (·.err) else none

/-- Every failure is raised, at the boundary of its condition. -/
theorem witness_FailureCodeHasItsCause :
    newError { awaiting [.tick true] with phase := .wait, tcnt := 31999 } = some .timeout ∧
      newError (capturing .read 4 999 38 true) = some .insufficientBits ∧
      newError { capturing .read 4 999 39 true with raw := { rawZero with b4 := 1 } } = some .checksumMismatch ∧
      newError { holding .a 1 0 0 0 0 with inputs := [.hostWrite 0 3 true] } = some .checksumMismatch ∧
      newError (awaiting [.hostWrite 0 1 false]) = some .configurationFailure ∧
      newError (awaiting [.hostWrite 0 4 false]) = some .illegalCommand := by decide

theorem witness_NewReadingHasMatchingChecksum :
    ∃ t, step (capturing .read 4 999 40 true) = .next t ∧ (capturing .read 4 999 40 true).rdv = false ∧ t.rdv = true :=
  ⟨_, rfl, rfl, by decide⟩

theorem inv_accepted (es : List Event) : Inv (accepted es) := by
  constructor <;> (try constructor) <;> simp [accepted, awaiting, State.reset, phaseCode, busy, rawZero]

theorem witness_StepKeepsInv : Inv (accepted [.tick true]) ∧ ∃ t, step (accepted [.tick true]) = .next t :=
  ⟨inv_accepted _, _, rfl⟩

theorem running_samples (n : Nat) : ∃ (s : State) (samples : List Level),
    Inv s ∧ s.phase ≠ .idle ∧ samples.length = n ∧ s.inputs = samples.map Event.tick ++ [] :=
  ⟨accepted ((List.replicate n true).map Event.tick ++ []), List.replicate n true, inv_accepted _,
    by simp [accepted], List.length_replicate, rfl⟩

theorem witness_EveryOperationEnds : ∃ (s : State) (samples : List Level),
    Inv s ∧ s.phase ≠ .idle ∧ samples.length = 10292041 ∧ s.inputs = samples.map Event.tick ++ [] :=
  running_samples 10292041

theorem witness_NoOperationEndsBeforeTick271041 : ∃ (s : State) (samples : List Level),
    s.phase = .wake ∧ s.tcnt = 0 ∧ samples.length = 271040 ∧ s.inputs = samples.map Event.tick ++ [] ∧
      271040 < 271041 := by
  obtain ⟨s, samples, h1, h2, h3, h4⟩ := accepted_samples 271040
  exact ⟨s, samples, h1, h2, h3, h4, by omega⟩

/-- An idle block, and a SAMPLE one sample before its end, whatever its count of bits. -/
theorem witness_ReadIsSampleThenInterp : State.reset.phase = .idle ∧ ∀ n : BitVec 13,
    (capturing .sample 4 999 n true).phase ≠ .idle ∧ (capturing .sample 4 999 n true).op = .sample ∧
      (capturing .sample 4 999 n true).done = false ∧ (capturing .sample 4 999 n true).rdv = false ∧
      (capturing .sample 4 999 n true).err = none ∧ (capturing .sample 4 999 n true).csum = 0 ∧
      (capturing .sample 4 999 n true).hum = 0 ∧ (capturing .sample 4 999 n true).temp = 0 ∧
      (capturing .sample 4 999 n true).inputs = [true].map Event.tick ++ [] :=
  ⟨rfl, fun _ => ⟨by simp [capturing], rfl, rfl, rfl, rfl, rfl, rfl, rfl, rfl⟩⟩

/-- The two ends of that SAMPLE. -/
theorem witness_ReadIsSampleThenInterp_ends :
    (nextOf (step (capturing .sample 4 999 38 true))).map (fun p => (p.phase, p.err)) =
        some (.idle, some .insufficientBits) ∧
      (nextOf (step (capturing .sample 4 999 40 true))).map (fun p => (p.phase, p.err)) = some (.idle, none) := by decide

/-- Two idle states with different histories. -/
theorem witness_OperationDependsOnNothingEarlier :
    let s := awaiting [.hostWrite 0 1 true, .tick true]
    let t := { holding .a 1 2 3 4 5 with done := true, err := some .timeout, inputs := s.inputs }
    ((1 : Word) = 1 ∨ (1 : Word) = 2) ∧ s.phase = .idle ∧ t.phase = .idle ∧ s.variant = t.variant ∧
      s.inputs = .hostWrite 0 1 true :: [.tick true] ∧ t.inputs = .hostWrite 0 1 true :: [.tick true] := by decide

theorem witness_AgreementIsKeptAlongRuns :
    Agree (awaiting [.tick true]) { awaiting [.tick true] with pin := 9, ovr := true, tcnt := 5 } ∧
      (awaiting [.tick true]).inputs = [.tick true] := by
  refine ⟨?_, rfl⟩
  constructor <;> simp [awaiting, State.reset]

theorem captureStart_of (es : List Event) : CaptureStart { awaiting es with phase := .capt, op := .read, ref := true } :=
  ⟨rfl, rfl, rfl, rfl, rfl, rfl⟩

/-- An empty first run, a low run of two samples and a high run in progress. -/
theorem witness_CaptureIsFunctionOfSamples :
    let s : State := { awaiting ([false, false, true].map Event.tick ++ []) with phase := .capt, op := .read, ref := true }
    CaptureStart s ∧ CaptureGoesOn [false, false, true] ∧ s.inputs = [false, false, true].map Event.tick ++ [] ∧
      closedRuns true 0 [false, false, true] = [0, 2] :=
  ⟨captureStart_of _, ⟨by decide, by decide, by decide⟩, rfl, by decide⟩

/-- `n` equal samples are one run. -/
theorem runs_replicate (k n : Nat) : openRun true k (List.replicate n true) = k + n ∧
    closedRuns true k (List.replicate n true) = [] := by
  induction n generalizing k with
  | zero => simp [openRun, closedRuns]
  | succ n ih => simp [List.replicate_succ, openRun, closedRuns, ih]; omega

/-- `n` samples of which each differs from the one before, the first from `ref`. -/
def alternating : Level → Nat → List Level
  | _, 0 => []
  | ref, n + 1 => (!ref) :: alternating (!ref) n

theorem closedRuns_alternating_succ (ref : Level) (k n : Nat) :
    closedRuns ref k (alternating ref (n + 1)) = k :: closedRuns (!ref) 1 (alternating (!ref) n) := by
  cases ref <;> rfl

theorem openRun_alternating_succ (ref : Level) (k n : Nat) :
    openRun ref k (alternating ref (n + 1)) = openRun (!ref) 1 (alternating (!ref) n) := by
  cases ref <;> rfl

/-- Every alternating sample ends a run. -/
theorem runs_alternating (ref : Level) (k n : Nat) : (closedRuns ref k (alternating ref n)).length = n ∧
    (∀ m ∈ closedRuns ref k (alternating ref n), m ≤ max k 1) ∧
    (n ≠ 0 → openRun ref k (alternating ref n) = 1) := by
  induction n generalizing ref k with
  | zero => simp [alternating, closedRuns]
  | succ n ih =>
    obtain ⟨h, hm, ho⟩ := ih (!ref) 1
    rw [closedRuns_alternating_succ, openRun_alternating_succ]
    refine ⟨by simp [h], fun m hmem => ?_, fun _ => ?_⟩
    · obtain rfl | hmem := List.mem_cons.1 hmem
      · omega
      · have := hm m hmem; omega
    · cases n with
      | zero => rfl
      | succ n => exact ho (by omega)

theorem captureStart_high (n : Nat) : ∃ s : State,
    CaptureStart s ∧ s.inputs = (List.replicate n true ++ [true]).map Event.tick ++ [] :=
  ⟨_, captureStart_of _, rfl⟩

theorem captureGoesOn_high (n : Nat) (h : n < 1000) : CaptureGoesOn (List.replicate n true) := by
  obtain ⟨ho, hc⟩ := runs_replicate 0 n
  constructor <;> simp [ho, hc, h]

theorem openRun_high (n : Nat) : openRun true 0 (List.replicate n true ++ [true]) = n + 1 := by
  rw [← List.replicate_succ', (runs_replicate 0 (n + 1)).1]; omega

/-- The stall: 999 high samples and one more. -/
theorem witness_CaptureEndsAtStallOrBound_stall : ∃ (c : List Level) (last : Level) (s : State),
    CaptureStart s ∧ CaptureGoesOn c ∧ s.inputs = (c ++ [last]).map Event.tick ++ [] ∧
      openRun true 0 (c ++ [last]) = 1000 := by
  obtain ⟨s, hs, hi⟩ := captureStart_high 999
  exact ⟨_, _, s, hs, captureGoesOn_high 999 (by omega), hi, openRun_high 999⟩

theorem alternating_snoc (n : Nat) (ref : Level) : ∃ last, alternating ref (n + 1) = alternating ref n ++ [last] := by
  induction n generalizing ref with
  | zero => exact ⟨_, rfl⟩
  | succ n ih =>
    obtain ⟨last, h⟩ := ih (!ref)
    exact ⟨last, by rw [alternating, h]; rfl⟩

theorem capture_alternating (n : Nat) (h : n < 10000) : ∃ (c : List Level) (last : Level) (s : State),
    CaptureStart s ∧ CaptureGoesOn c ∧ s.inputs = (c ++ [last]).map Event.tick ++ [] ∧
      (closedRuns true 0 (c ++ [last])).length = n + 1 := by
  obtain ⟨last, hl⟩ := alternating_snoc n true
  refine ⟨alternating true n, last, _, captureStart_of _, ?_, rfl, ?_⟩
  · obtain ⟨hc, hm, ho⟩ := runs_alternating true 0 n
    refine ⟨fun m hmem => by have := hm m hmem; omega, ?_, by omega⟩
    by_cases hn : n = 0
    · subst hn; decide
    · rw [ho hn]; omega
  · rw [← hl]
    exact (runs_alternating true 0 (n + 1)).1

/-- The bound: 10000 alternating samples. -/
theorem witness_CaptureEndsAtStallOrBound_bound : ∃ (c : List Level) (last : Level) (s : State),
    CaptureStart s ∧ CaptureGoesOn c ∧ s.inputs = (c ++ [last]).map Event.tick ++ [] ∧
      (closedRuns true 0 (c ++ [last])).length = 10000 := capture_alternating 9999 (by omega)

/-- Forty bits, half of them 1, with pulses of 20 and of 21 samples. -/
theorem nominal_runs (bits : List (Nat × Nat)) : ∃ s : State, CaptureStart s ∧
    s.inputs = lineEvents (.wave ([(false, 80), (true, 80)] ++ bits.flatMap (fun b => [(false, b.1), (true, b.2)]) ++
      [(false, 50), (true, 1000)])) ++ [] := ⟨_, captureStart_of _, rfl⟩

theorem witness_NominalFrameIsDecoded : ∃ (s : State) (bits : List (Nat × Nat)), CaptureStart s ∧ bits.length = 40 ∧
    (∀ n ∈ 80 :: 80 :: 50 :: bits.flatMap (fun b => [b.1, b.2]), 1 ≤ n ∧ n < 1000) ∧
    s.inputs = lineEvents (.wave ([(false, 80), (true, 80)] ++ bits.flatMap (fun b => [(false, b.1), (true, b.2)]) ++
      [(false, 50), (true, 1000)])) ++ [] := by
  obtain ⟨s, h, hi⟩ := nominal_runs (List.replicate 20 (50, 20) ++ List.replicate 20 (50, 21))
  exact ⟨s, _, h, by decide, by decide, hi⟩

end Sys2Proof.Tests
end

/-! SUPPORT. The codes and the outputs, and what one step can do to CFG, to OVR and to RDV: one case analysis over
`StepEffect` for each. -/

namespace Sys2Proof.Machine

/-! ### The codes, the reset values and the outputs -/

/-- Settles O18: each list is the table of the rule, one entry for each constructor. -/
theorem enumerationCodes : Obligations.EnumerationCodes := by
  unfold Obligations.EnumerationCodes
  exact ⟨rfl, rfl, rfl, rfl⟩

/-- Settles O31: the fields of `State.reset`, and the outputs as functions of them. -/
theorem resetValuesAreZero : Obligations.ResetValuesAreZero := by
  unfold Obligations.ResetValuesAreZero
  refine ⟨rfl, rfl, rfl, rfl, rfl, rfl, rfl, rfl, rfl, rfl, rfl, rfl, rfl, rfl, rfl, rfl, rfl, ?outputs⟩
  exact ⟨rfl, rfl, rfl, rfl⟩

/-- Settles O16: the byte written is the byte of its index (`rawByte_setRawByte`). -/
theorem rawBytesDoNotAlias : Obligations.RawBytesDoNotAlias := by
  unfold Obligations.RawBytesDoNotAlias
  intro r j k v
  exact rawByte_setRawByte r k j v

/-- The line is driven in the three phases of the handshake (spec/10_state.md R41). -/
theorem lineOe_eq_true {s : State} : lineOe s = true ↔ s.phase = .wake ∨ s.phase = .req ∨ s.phase = .rel := by
  unfold lineOe
  cases s.phase <;> simp

/-- The line is driven high in WAKE and REL (spec/10_state.md R41). -/
theorem lineOut_eq_true {s : State} : lineOut s = true ↔ s.phase = .wake ∨ s.phase = .rel := by
  unfold lineOut
  cases s.phase <;> simp

/-- Settles O33: one rule for each output. -/
theorem outputsFollowPhase : Obligations.OutputsFollowPhase := by
  unfold Obligations.OutputsFollowPhase
  intro s
  exact ⟨lineOe_eq_true, lineOut_eq_true, busy_eq_true, rfl⟩

/-! ### CFG -/

/-- A step changes VARIANT or PIN by a reset or by a write to CFG while idle only (spec/10_state.md R23). -/
theorem StepEffect.cfg_kept {s t : State} {e : Event} (h : StepEffect s e t) :
    (t.variant = s.variant ∧ t.pin = s.pin) ∨ e = .reset ∨ (∃ x, e = .underReset x) ∨
      (s.phase = .idle ∧ ∃ d ok, e = .hostWrite 1 d ok) := by
  cases h with
  | reset => exact .inr (.inl rfl)
  | writeUnderReset | tickUnderReset | readUnderReset => exact .inr (.inr (.inl ⟨_, rfl⟩))
  | writeCfg d ok hs => exact .inr (.inr (.inr ⟨hs, d, ok, rfl⟩))
  | writeStatus d ok => left; unfold Machine.writeStatus; split <;> exact ⟨rfl, rfl⟩
  | hostRead | tick | discarded | ignored | writeRaw | nop | read | sample | interp | reserved => left; simp

/-- Settles O35: CFG is kept by every effect but the three named. -/
theorem onlyIdleHostWriteOrResetChangesCfg : Obligations.OnlyIdleHostWriteOrResetChangesCfg := by
  unfold Obligations.OnlyIdleHostWriteOrResetChangesCfg
  intro s t e rest hn hst hne
  rcases (stepEffect_of_placed hn hst).cfg_kept with ⟨hv, hp⟩ | hcause
  · exact absurd hne (by simp [hv, hp])
  · exact hcause

/-! ### OVR -/

/-- A write to STATUS clears OVR exactly by bit 3 (spec/10_state.md R29). -/
theorem writeStatus_ovr (d : Word) (s : State) : (writeStatus d s).ovr = (s.ovr && !d.getLsbD 3) := by
  unfold writeStatus
  split <;> simp_all

/-- The raw registers are guarded and none of them is STATUS. -/
theorem guardedIndex_of_rawIndex {a : RegIndex} {k : Fin 5} (h : a.toNat = 4 + k.val) : guardedIndex a ∧ a ≠ 2 := by
  obtain rfl : a = BitVec.ofNat 4 (4 + k.val) := BitVec.eq_of_toNat_eq (by simp [h]; omega)
  clear h
  fin_cases k <;> decide

/-- What each kind of event does to OVR in a phase: its value before the event and after it. -/
def OvrAfter (phase : Phase) (before after : Bool) : Event → Prop
  | .reset => after = false
  | .underReset _ => after = false
  | .access (.hostWrite a d _) =>
    (a = 2 → after = (before && !d.getLsbD 3)) ∧
      (a ≠ 2 → (after = true ↔ before = true ∨ (guardedIndex a ∧ phase ≠ .idle)))
  | .access (.hostRead _) => after = before
  | .access (.tick _) => after = before

/-- A write to another index than STATUS that keeps OVR: the block is idle or the index is not guarded. -/
theorem ovrAfter_of_kept {s t : State} {a : RegIndex} {d : Word} {ok : Bool} (ha : a ≠ 2) (ht : t.ovr = s.ovr)
    (hs : guardedIndex a → s.phase = .idle) : OvrAfter s.phase s.ovr t.ovr (.hostWrite a d ok) :=
  ⟨fun h => absurd h ha, fun _ => by
    rw [ht]
    exact ⟨.inl, fun h => h.elim id fun ⟨hg, hb⟩ => absurd (hs hg) hb⟩⟩

/-- Every effect does to OVR what its event says. -/
theorem StepEffect.ovrAfter {s t : State} {e : Event} (h : StepEffect s e t) : OvrAfter s.phase s.ovr t.ovr e := by
  cases h with
  | reset | writeUnderReset | tickUnderReset | readUnderReset | hostRead => rfl
  | tick level => simp [OvrAfter]
  | writeStatus d ok => exact ⟨fun _ => writeStatus_ovr d _, fun h => absurd rfl h⟩
  | discarded a d ok hs ha =>
    refine ⟨?_, fun _ => by simp [ha, hs]⟩
    rintro rfl
    exact absurd ha (by decide)
  | ignored a d ok ha =>
    refine ovrAfter_of_kept ?_ rfl ?_
    · rintro rfl; exact absurd ha (by decide)
    · rintro (rfl | rfl | rfl | rfl | rfl | rfl | rfl) <;> exact absurd ha (by decide)
  | writeRaw a k d ok ha hs => exact ovrAfter_of_kept (guardedIndex_of_rawIndex ha).2 rfl fun _ => hs
  | writeCfg d ok hs | nop ok hs | reserved d ok hs => exact ovrAfter_of_kept (by decide) rfl fun _ => hs
  | read ok hs | sample ok hs | interp ok hs => exact ovrAfter_of_kept (by decide) (by simp) fun _ => hs

/-- Settles O36: `OvrAfter` read clause by clause. -/
theorem overrunFlagIsSticky : Obligations.OverrunFlagIsSticky := by
  unfold Obligations.OverrunFlagIsSticky
  intro s t e rest hn hst
  have h : OvrAfter s.phase s.ovr t.ovr e := (stepEffect_of_placed hn hst).ovrAfter
  refine ⟨?reset, ?status, ?write, ?other⟩
  case reset => rintro (rfl | ⟨x, rfl⟩) <;> exact h
  case status => rintro d ok rfl; exact h.1 rfl
  case write => rintro a d ok rfl ha; exact h.2 ha
  case other => rintro (⟨a, rfl⟩ | ⟨level, rfl⟩) <;> exact h

/-! ### A new Reading -/

/-- RDV is set by `interpret` only where the checksum matches (spec/41_interpreter.md R162, R167). -/
theorem checksum_of_interpret_rdv {s : State} (hs : s.rdv = false) (ht : (interpret s).rdv = true) :
    checksum s.raw = s.raw.b4 := by
  by_contra hne
  rw [interpret_of_mismatch hne] at ht
  simp [hs] at ht

/-- At the end of a capture RDV rises by `interpret` only. -/
theorem endOfCapture_of_rdv_rises {s : State} (hs : s.rdv = false) (ht : (endOfCapture s).rdv = true) :
    endOfCapture s = interpret s := by
  rcases endOfCapture_cases s with ⟨_, h⟩ | ⟨_, _, h⟩ | ⟨_, _, h⟩
  · simp [h, hs] at ht
  · simp [h, hs] at ht
  · exact h

/-- In a tick RDV rises by `interpret` only. -/
theorem tick_of_rdv_rises {level : Level} {s : State} (hs : s.rdv = false) (ht : (tick level s).rdv = true) :
    ∃ u : State, u.rdv = false ∧ tick level s = interpret u := by
  rcases tick_cases level s with ⟨_, h⟩ | ⟨_, h⟩ | ⟨_, h⟩ | ⟨_, h⟩ | ⟨_, h⟩ | ⟨_, _, h⟩ | ⟨_, _, h⟩ <;> rw [h] at ht ⊢
  · simp [hs] at ht
  · rcases tickDrive_cases Config.tWake .req s with ⟨_, h⟩ | ⟨_, h⟩ <;> simp [h, hs] at ht
  · rcases tickDrive_cases Config.tReq .rel s with ⟨_, h⟩ | ⟨_, h⟩ <;> simp [h, hs] at ht
  · rcases tickDrive_cases Config.tRel .wait s with ⟨_, h⟩ | ⟨_, h⟩ <;> simp [h, hs] at ht
  · rcases tickWait_cases level s with ⟨_, h⟩ | ⟨_, _, h⟩ | ⟨_, _, h⟩ <;> simp [h, hs] at ht
  · rcases tickSame_cases s with ⟨_, h⟩ | ⟨_, h⟩ <;> rw [h] at ht ⊢
    · exact ⟨{ s with dur := s.dur + 1 }, hs, endOfCapture_of_rdv_rises hs ht⟩
    · simp [hs] at ht
  · rcases tickChange_cases level s with ⟨_, h⟩ | ⟨_, h⟩ <;> rw [h] at ht ⊢
    · exact ⟨_, by simpa using hs, endOfCapture_of_rdv_rises (by simpa using hs) ht⟩
    · simp [hs] at ht

/-- Acceptance produces no Reading. -/
@[simp] theorem startOperation_rdv (o : Op) (s : State) : (startOperation o s).rdv = false := by
  unfold startOperation; dsimp only; split <;> rfl

/-- In any step RDV rises by `interpret` only (spec/10_state.md R28). -/
theorem StepEffect.interpret_of_rdv_rises {s t : State} {e : Event} (h : StepEffect s e t) (hs : s.rdv = false)
    (ht : t.rdv = true) : ∃ u : State, u.rdv = false ∧ t = interpret u := by
  cases h with
  | tick level => exact tick_of_rdv_rises hs ht
  | interp ok hidle => exact ⟨_, rfl, rfl⟩
  | writeStatus d ok => unfold Machine.writeStatus at ht; split at ht <;> simp [hs] at ht
  | reset | writeUnderReset | tickUnderReset | readUnderReset => exact absurd ht Bool.false_ne_true
  | read | sample | reserved => simp at ht
  | hostRead | discarded | ignored | writeCfg | writeRaw | nop => simp [hs] at ht

/-- Settles O39: the Reading is what `interpret` makes of a buffer whose checksum matches. -/
theorem newReadingHasMatchingChecksum : Obligations.NewReadingHasMatchingChecksum := by
  unfold Obligations.NewReadingHasMatchingChecksum
  intro s t hst hs ht
  obtain ⟨e, q, n, he⟩ := stepEffect_of_step hst
  obtain ⟨u, hu, rfl⟩ := he.interpret_of_rdv_rises hs ht
  have hsum : checksum u.raw = u.raw.b4 := checksum_of_interpret_rdv hu ht
  rw [interpret_of_match hsum]
  exact ⟨by rw [← checksum_toNat, hsum], hsum, rfl, rfl, rfl, rfl⟩

end Sys2Proof.Machine

/-! SUPPORT. The invariant of spec/10_state.md R44: the states at rest, the handshake, the capture, and every step. -/

namespace Sys2Proof.Machine

/-! ### States at rest -/

/-- The counters are within the bounds of spec/10_state.md R44 (b) to (d). -/
structure CountersBounded (s : State) : Prop where
  tcnt : s.tcnt.toNat ≤ 249999
  dur : s.dur.toNat ≤ 1000
  idx : s.idx.toNat ≤ 10000
  bitcnt : s.bitcnt.toNat ≤ 4998

/-- The block is idle and its result is the one of a reset or of an ended command: `Inv` without the counters and
without what it says of a busy block. -/
structure AtRest (s : State) : Prop where
  phase : s.phase = .idle
  readingIsOfSuccess : s.rdv = true → s.done = true ∧ s.err = none ∧ (s.op = .read ∨ s.op = .interp)
  noReadingNoValues : s.rdv = false → s.hum = 0 ∧ s.temp = 0
  errorIsDone : s.err ≠ none → s.done = true
  csumOfSample : s.op = .sample → s.csum = 0
  csumOfFailure : s.err ≠ none → s.err ≠ some .checksumMismatch → s.csum = 0
  tempNotMin : s.temp ≠ 0x8000

/-- There is no result: what the prologue leaves, and what a busy block has (spec/42_composite_control.md R180,
spec/20_memory.md R75). -/
structure NoResult (s : State) : Prop where
  rdv : s.rdv = false
  err : s.err = none
  csum : s.csum = 0
  hum : s.hum = 0
  temp : s.temp = 0

theorem Inv.countersBounded {s : State} (h : Inv s) : CountersBounded s :=
  ⟨h.tcntBound, h.durBound, h.idxBound, h.bitcntBound⟩

theorem Inv.noResult_of_busy {s : State} (h : Inv s) (hs : s.phase ≠ .idle) : NoResult s := by
  obtain ⟨hrdv, herr, hcsum⟩ := h.noVerdictWhileBusy (busy_eq_true.mpr hs)
  obtain ⟨hhum, htemp⟩ := h.noReadingNoValues hrdv
  exact ⟨hrdv, herr, hcsum, hhum, htemp⟩

theorem noResult_prologue (s : State) : NoResult (prologue s) := ⟨rfl, rfl, rfl, rfl, rfl⟩

theorem phaseCode_le (p : Phase) : (phaseCode p).toNat ≤ 5 := by cases p <;> decide

/-- At rest `Inv` is about the counters and the result alone. -/
theorem AtRest.inv {s : State} (h : AtRest s) (hc : CountersBounded s) : Inv s := by
  have idle_ne {p : Phase} (hp : p ≠ .idle) : s.phase ≠ p := by rw [h.phase]; exact hp.symm
  have not_busy : ¬ busy s = true := by simp [busy_eq_true, h.phase]
  exact {
    phaseInRange := phaseCode_le _
    tcntBound := hc.tcnt
    durBound := hc.dur
    idxBound := hc.idx
    bitcntBound := hc.bitcnt
    notBusyAndDone := fun hb => not_busy hb.1
    readingIsOfSuccess := h.readingIsOfSuccess
    noReadingNoValues := h.noReadingNoValues
    errorIsDone := fun he => ⟨h.errorIsDone he, busy_eq_false.mpr h.phase⟩
    csumOfSample := h.csumOfSample
    csumOfFailure := h.csumOfFailure
    tempNotMin := h.tempNotMin
    refIsParity := fun hp => absurd hp (idle_ne (by decide))
    wakeCount := fun hp => absurd hp (idle_ne (by decide))
    reqCount := fun hp => absurd hp (idle_ne (by decide))
    relCount := fun hp => absurd hp (idle_ne (by decide))
    waitCount := fun hp => absurd hp (idle_ne (by decide))
    openRunShort := fun hp => absurd hp (idle_ne (by decide))
    transitionsLeft := fun hp => absurd hp (idle_ne (by decide))
    runNotEmpty := fun hp => absurd hp (idle_ne (by decide))
    bitsOfIndex := fun hp => absurd hp (idle_ne (by decide))
    nothingCollected := fun hb => absurd hb not_busy
    noVerdictWhileBusy := fun hb => absurd hb not_busy
    runsReadOrSample := fun hb => absurd hb not_busy }

/-- Settles O40: a reset state is at rest, with no result and all counters 0. -/
theorem resetSatisfiesInv : Obligations.ResetSatisfiesInv := by
  unfold Obligations.ResetSatisfiesInv
  have atRest : AtRest State.reset := by constructor <;> decide
  exact atRest.inv (by constructor <;> decide)

/-! ### The ends of a command -/

/-- A failure raised where there is no result leaves the block at rest. -/
theorem atRest_raiseFailure {s : State} (f : Failure) (h : NoResult s) : AtRest (raiseFailure f s) where
  phase := rfl
  readingIsOfSuccess hr := by simp [h.rdv] at hr
  noReadingNoValues _ := ⟨h.hum, h.temp⟩
  errorIsDone _ := rfl
  csumOfSample _ := h.csum
  csumOfFailure _ _ := h.csum
  tempNotMin := by simp [h.temp]

theorem inv_raiseFailure {s : State} (f : Failure) (hc : CountersBounded s) (h : NoResult s) :
    Inv (raiseFailure f s) :=
  (atRest_raiseFailure f h).inv ⟨hc.tcnt, hc.dur, hc.idx, hc.bitcnt⟩

theorem inv_finish {s : State} (hc : CountersBounded s) (h : NoResult s) : Inv (finish s) := by
  have atRest : AtRest (finish s) :=
    { phase := rfl
      readingIsOfSuccess := fun hr => by simp [h.rdv] at hr
      noReadingNoValues := fun _ => ⟨h.hum, h.temp⟩
      errorIsDone := fun _ => rfl
      csumOfSample := fun _ => h.csum
      csumOfFailure := fun he => absurd h.err he
      tempNotMin := by simp [h.temp] }
  exact atRest.inv ⟨hc.tcnt, hc.dur, hc.idx, hc.bitcnt⟩

/-- The magnitude of a temperature has 15 bits (spec/41_interpreter.md R166). -/
theorem magnitude_lt (r : RawSample) : magnitude r < 32768 := by
  have h7 : (r.b2 &&& 0x7F).toNat ≤ 127 := by
    rw [BitVec.toNat_and]
    exact Nat.and_le_right
  have hb3 := r.b3.isLt
  unfold magnitude
  omega

/-- No temperature is the least 16-bit number (spec/10_state.md R36). -/
theorem temperature_ne_min (v : Variant) (r : RawSample) : temperature v r ≠ 0x8000 := by
  have hb2 := r.b2.isLt
  have hm := magnitude_lt r
  intro h
  replace h : (temperature v r).toNat = 32768 := congrArg BitVec.toNat h
  cases v with
  | a =>
    simp only [temperature, BitVec.toNat_ofNat] at h
    omega
  | b =>
    by_cases hsign : r.b2.getLsbD 7 = true
    · simp only [temperature, hsign, if_true, neg16, BitVec.toNat_ofNat] at h
      omega
    · simp only [temperature, hsign, if_false, BitVec.toNat_ofNat, Bool.false_eq_true] at h
      omega

/-- The end of READ or INTERP keeps the invariant: a mismatch leaves no Reading, a match leaves a whole one. -/
theorem inv_interpret {s : State} (hc : CountersBounded s) (h : NoResult s) (ho : s.op = .read ∨ s.op = .interp) :
    Inv (interpret s) := by
  have not_sample : s.op ≠ .sample := by rcases ho with ho | ho <;> simp [ho]
  have bounded : CountersBounded (interpret s) := by
    constructor <;> simp [hc.tcnt, hc.dur, hc.idx, hc.bitcnt]
  refine AtRest.inv ?_ bounded
  by_cases hm : checksum s.raw = s.raw.b4
  · rw [interpret_of_match hm]
    exact {
      phase := rfl
      readingIsOfSuccess := fun _ => ⟨rfl, h.err, ho⟩
      noReadingNoValues := fun hr => absurd hr.symm Bool.false_ne_true
      errorIsDone := fun _ => rfl
      csumOfSample := fun hs => absurd hs not_sample
      csumOfFailure := fun he => absurd h.err he
      tempNotMin := temperature_ne_min _ _ }
  · rw [interpret_of_mismatch hm]
    exact {
      phase := rfl
      readingIsOfSuccess := fun hr => by simp [h.rdv] at hr
      noReadingNoValues := fun _ => ⟨h.hum, h.temp⟩
      errorIsDone := fun _ => rfl
      csumOfSample := fun hs => absurd hs not_sample
      csumOfFailure := fun _ he => absurd rfl he
      tempNotMin := by simp [h.temp] }

theorem inv_endOfCapture {s : State} (hc : CountersBounded s) (h : NoResult s) (ho : s.op = .read ∨ s.op = .sample) :
    Inv (endOfCapture s) := by
  rcases endOfCapture_cases s with ⟨_, he⟩ | ⟨_, _, he⟩ | ⟨_, hs, he⟩ <;> rw [he]
  · exact inv_raiseFailure _ hc h
  · exact inv_finish hc h
  · exact inv_interpret hc h (.inl (ho.resolve_right hs))

/-! ### The handshake and the wait -/

/-- The ticks that a phase counts; none in IDLE and CAPT (spec/40_decoder.md R122 to R126). -/
def tickLimit : Phase → Nat
  | .wake => 250000
  | .req => 20000
  | .rel => 40
  | .wait => 32000
  | .idle => 0
  | .capt => 0

theorem Inv.tcnt_lt_tickLimit {s : State} (h : Inv s) (hidle : s.phase ≠ .idle) (hcapt : s.phase ≠ .capt) :
    s.tcnt.toNat < tickLimit s.phase := by
  cases hp : s.phase with
  | idle => exact absurd hp hidle
  | wake => exact h.wakeCount hp
  | req => exact h.reqCount hp
  | rel => exact h.relCount hp
  | wait => exact h.waitCount hp
  | capt => exact absurd hp hcapt

/-- What every running operation is: READ or SAMPLE, not DONE and without a result. -/
structure Running (s : State) : Prop extends NoResult s where
  done : s.done = false
  op : s.op = .read ∨ s.op = .sample

theorem Inv.running {s : State} (h : Inv s) (hs : s.phase ≠ .idle) : Running s := by
  have hb : busy s = true := busy_eq_true.mpr hs
  have not_done : s.done = false := by simpa [hb] using h.notBusyAndDone
  exact { h.noResult_of_busy hs with done := not_done, op := h.runsReadOrSample hb }

/-- What an operation is before its capture: in a phase that counts, with nothing collected. -/
structure BeforeCapture (s : State) : Prop extends Running s where
  counting : s.tcnt.toNat < tickLimit s.phase
  dur : s.dur.toNat ≤ 1000
  idx : s.idx.toNat ≤ 10000
  bitcnt : s.bitcnt = 0
  raw : s.raw = rawZero

theorem Inv.beforeCapture {s : State} (h : Inv s) (hidle : s.phase ≠ .idle) (hcapt : s.phase ≠ .capt) :
    BeforeCapture s := by
  obtain ⟨hbits, hraw⟩ := h.nothingCollected (busy_eq_true.mpr hidle) hcapt
  exact {
    h.running hidle with
    counting := h.tcnt_lt_tickLimit hidle hcapt
    dur := h.durBound
    idx := h.idxBound
    bitcnt := hbits
    raw := hraw }

theorem tickLimit_le (p : Phase) : tickLimit p ≤ 250000 := by cases p <;> decide

/-- Before a capture `Inv` is about the phase's own counter. -/
theorem BeforeCapture.inv {s : State} (h : BeforeCapture s) : Inv s := by
  have hcount := h.counting
  have hlimit := tickLimit_le s.phase
  have not_capt : s.phase ≠ .capt := fun hp => by simp [hp, tickLimit] at hcount
  have count_lt {p : Phase} (hp : s.phase = p) : s.tcnt.toNat < tickLimit p := hp ▸ hcount
  exact {
    phaseInRange := phaseCode_le _
    tcntBound := by omega
    durBound := h.dur
    idxBound := h.idx
    bitcntBound := by simp [h.bitcnt]
    notBusyAndDone := fun hb => by simp [h.done] at hb
    readingIsOfSuccess := fun hr => by simp [h.rdv] at hr
    noReadingNoValues := fun _ => ⟨h.hum, h.temp⟩
    errorIsDone := fun he => absurd h.err he
    csumOfSample := fun _ => h.csum
    csumOfFailure := fun _ _ => h.csum
    tempNotMin := by simp [h.temp]
    wakeCount := count_lt
    reqCount := count_lt
    relCount := count_lt
    waitCount := count_lt
    nothingCollected := fun _ _ => ⟨h.bitcnt, h.raw⟩
    noVerdictWhileBusy := fun _ => ⟨h.rdv, h.err, h.csum⟩
    runsReadOrSample := fun _ => h.op
    refIsParity := fun hp => absurd hp not_capt
    openRunShort := fun hp => absurd hp not_capt
    transitionsLeft := fun hp => absurd hp not_capt
    runNotEmpty := fun hp => absurd hp not_capt
    bitsOfIndex := fun hp => absurd hp not_capt }

/-- The acceptance of READ or SAMPLE starts the handshake or fails. -/
theorem inv_startOperation {s : State} {o : Op} (hc : CountersBounded s) (ho : o = .read ∨ o = .sample) :
    Inv (startOperation o s) := by
  cases hcfg : s.cfgOk with
  | true =>
    rw [startOperation_of_cfgOk hcfg]
    exact BeforeCapture.inv {
      noResult_prologue s with
      done := rfl, op := ho, counting := by simp [tickLimit], dur := hc.dur, idx := hc.idx, bitcnt := rfl, raw := rfl }
  | false =>
    rw [startOperation_of_not_cfgOk hcfg]
    exact inv_raiseFailure _ ⟨hc.tcnt, hc.dur, hc.idx, by simp⟩ { noResult_prologue s with }

theorem tcnt_succ_of_lt {s : State} {p : Phase} (h : s.tcnt.toNat < tickLimit p) :
    (s.tcnt + 1).toNat = s.tcnt.toNat + 1 := by
  have hlimit := tickLimit_le p
  exact BitVec.toNat_add_of_lt (by change s.tcnt.toNat + 1 < 2 ^ 18; omega)

/-- One tick counted below the phase's limit. -/
theorem BeforeCapture.inv_count {s : State} (h : BeforeCapture s) (hne : (s.tcnt + 1).toNat ≠ tickLimit s.phase) :
    Inv { s with tcnt := s.tcnt + 1 } := by
  have hcount := h.counting
  have hsucc := tcnt_succ_of_lt hcount
  have short : (s.tcnt + 1).toNat < tickLimit s.phase := by omega
  exact BeforeCapture.inv { h with counting := short }

theorem BeforeCapture.inv_tickDrive {s : State} {p : Phase} (h : BeforeCapture s) (hp : 0 < tickLimit p) :
    Inv (tickDrive (tickLimit s.phase) p s) := by
  rcases tickDrive_cases (tickLimit s.phase) p s with ⟨_, ht⟩ | ⟨hne, ht⟩ <;> rw [ht]
  · exact BeforeCapture.inv { h with counting := hp }
  · exact h.inv_count hne

/-! ### The capture -/

/-- What an operation is in its capture: the open run, the index and the bits of the ended runs. -/
structure Capturing (s : State) : Prop extends Running s where
  phase : s.phase = .capt
  tcnt : s.tcnt.toNat ≤ 249999
  dur : s.dur.toNat < 1000
  idx : s.idx.toNat < 10000
  runNotEmpty : s.idx.toNat ≠ 0 → 1 ≤ s.dur.toNat
  bits : s.bitcnt.toNat = (s.idx.toNat - 3) / 2
  ref : s.ref = true ↔ s.idx.toNat % 2 = 0

theorem Inv.capturing {s : State} (h : Inv s) (hp : s.phase = .capt) : Capturing s :=
  { h.running (by simp [hp]) with
    phase := hp
    tcnt := h.tcntBound
    dur := h.openRunShort hp
    idx := h.transitionsLeft hp
    runNotEmpty := h.runNotEmpty hp
    bits := h.bitsOfIndex hp
    ref := h.refIsParity hp }

/-- In a capture `Inv` is about the run, the index and the bits. -/
theorem Capturing.inv {s : State} (h : Capturing s) : Inv s := by
  have capt_ne {p : Phase} (hp : p ≠ .capt) : s.phase ≠ p := by rw [h.phase]; exact hp.symm
  have hidx := h.idx
  have hbits := h.bits
  exact {
    phaseInRange := phaseCode_le _
    tcntBound := h.tcnt
    durBound := h.dur.le
    idxBound := h.idx.le
    bitcntBound := by omega
    notBusyAndDone := fun hb => by simp [h.done] at hb
    readingIsOfSuccess := fun hr => by simp [h.rdv] at hr
    noReadingNoValues := fun _ => ⟨h.hum, h.temp⟩
    errorIsDone := fun he => absurd h.err he
    csumOfSample := fun _ => h.csum
    csumOfFailure := fun _ _ => h.csum
    tempNotMin := by simp [h.temp]
    noVerdictWhileBusy := fun _ => ⟨h.rdv, h.err, h.csum⟩
    runsReadOrSample := fun _ => h.op
    refIsParity := fun _ => h.ref
    openRunShort := fun _ => h.dur
    transitionsLeft := fun _ => h.idx
    runNotEmpty := fun _ => h.runNotEmpty
    bitsOfIndex := fun _ => h.bits
    nothingCollected := fun _ hne => absurd h.phase hne
    wakeCount := fun hp => absurd hp (capt_ne (by decide))
    reqCount := fun hp => absurd hp (capt_ne (by decide))
    relCount := fun hp => absurd hp (capt_ne (by decide))
    waitCount := fun hp => absurd hp (capt_ne (by decide)) }

/-- WAIT counts, starts the capture at the first low sample, or fails. -/
theorem BeforeCapture.inv_tickWait {s : State} (h : BeforeCapture s) (hp : s.phase = .wait) (level : Level) :
    Inv (tickWait level s) := by
  have hcount : s.tcnt.toNat < 32000 := by simpa [hp, tickLimit] using h.counting
  have hsucc := tcnt_succ_of_lt h.counting
  rcases tickWait_cases level s with ⟨_, ht⟩ | ⟨_, _, ht⟩ | ⟨_, hne, ht⟩ <;> rw [ht]
  · have bounded : s.tcnt.toNat ≤ 249999 := by omega
    exact Capturing.inv { h with
      phase := rfl, tcnt := bounded, dur := by simp, idx := by simp, runNotEmpty := by simp, ref := by simp
      bits := by simp [h.bitcnt] }
  · have bounded : (s.tcnt + 1).toNat ≤ 249999 := by omega
    exact inv_raiseFailure _ ⟨bounded, h.dur, h.idx, by simp [h.bitcnt]⟩ { h with }
  · exact h.inv_count (by rw [hp]; exact hne)

/-- A sample equal to the reference level lengthens the run, or ends the capture at the 1000th. -/
theorem Capturing.inv_tickSame {s : State} (h : Capturing s) : Inv (tickSame s) := by
  have hdur := h.dur
  have hidx := h.idx
  have hbits := h.bits
  have hsucc : (s.dur + 1).toNat = s.dur.toNat + 1 :=
    BitVec.toNat_add_of_lt (by change s.dur.toNat + 1 < 2 ^ 10; omega)
  rcases tickSame_cases s with ⟨hstall, ht⟩ | ⟨hne, ht⟩ <;> rw [ht]
  · have few_bits : s.bitcnt.toNat ≤ 4998 := by omega
    exact inv_endOfCapture ⟨h.tcnt, hstall.le, hidx.le, few_bits⟩ { h with } h.op
  · have short : (s.dur + 1).toNat < 1000 := lt_of_le_of_ne (by omega) hne
    have not_empty : 1 ≤ (s.dur + 1).toNat := by omega
    exact Capturing.inv { h with dur := short, runNotEmpty := fun _ => not_empty }

/-- The bits of the ended runs after one more of them: one for each even index above 3. -/
theorem Capturing.closeRun_bits {s : State} (h : Capturing s) :
    (closeRun s).bitcnt.toNat = (s.idx.toNat + 1 - 3) / 2 := by
  have hidx := h.idx
  have hbits := h.bits
  by_cases hsel : selected s.idx = true
  · obtain ⟨hgt, heven⟩ := (selected_iff s.idx).mp hsel
    have hsucc : (s.bitcnt + 1).toNat = s.bitcnt.toNat + 1 :=
      BitVec.toNat_add_of_lt (by change s.bitcnt.toNat + 1 < 2 ^ 13; omega)
    rw [closeRun_bitcnt_of_selected hsel, hsucc]
    omega
  · have not_even_above : ¬(3 < s.idx.toNat ∧ s.idx.toNat % 2 = 0) := mt (selected_iff s.idx).mpr hsel
    rw [closeRun_bitcnt_of_not_selected (by simpa using hsel)]
    omega

/-- The other level is high exactly at the other parity (spec/10_state.md R44 (i)). -/
theorem Capturing.ref_after_change {s : State} (h : Capturing s) {level : Level} (hl : level ≠ s.ref) :
    level = true ↔ (s.idx.toNat + 1) % 2 = 0 := by
  obtain rfl : level = !s.ref := Bool.eq_not.mpr hl
  rw [Bool.not_eq_true', ← Bool.not_eq_true, h.ref]
  omega

/-- A sample of the other level ends the run, and ends the capture with the 10000th of them. -/
theorem Capturing.inv_tickChange {s : State} (h : Capturing s) {level : Level} (hl : level ≠ s.ref) :
    Inv (tickChange level s) := by
  have hidx := h.idx
  have hbits := h.closeRun_bits
  have hparity := h.ref_after_change hl
  have hsucc : (s.idx + 1).toNat = s.idx.toNat + 1 :=
    BitVec.toNat_add_of_lt (by change s.idx.toNat + 1 < 2 ^ 14; omega)
  rw [← hsucc] at hbits hparity
  have noResult : NoResult (closeRun s) := by constructor <;> simp [h.rdv, h.err, h.csum, h.hum, h.temp]
  have hop : (closeRun s).op = .read ∨ (closeRun s).op = .sample := by simpa using h.op
  have htcnt : (closeRun s).tcnt.toNat ≤ 249999 := by simpa using h.tcnt
  rcases tickChange_cases level s with ⟨hbound, ht⟩ | ⟨hne, ht⟩ <;> rw [ht]
  · have few_bits : (closeRun s).bitcnt.toNat ≤ 4998 := by omega
    exact inv_endOfCapture ⟨htcnt, by simp, hbound.le, few_bits⟩ { noResult with } hop
  · have more_runs : (s.idx + 1).toNat < 10000 := lt_of_le_of_ne (by omega) hne
    exact Capturing.inv { noResult with
      done := by simp [h.done], op := hop, phase := by simp [h.phase], tcnt := htcnt, dur := by simp
      idx := more_runs, runNotEmpty := by simp, bits := hbits, ref := hparity }

/-! ### Every event -/

/-- One tick of the sequencer, phase by phase. -/
theorem Inv.tick {s : State} (h : Inv s) (level : Level) : Inv (tick level s) := by
  have before {p : Phase} (hp : s.phase = p) (hidle : p ≠ .idle) (hcapt : p ≠ .capt) : BeforeCapture s :=
    h.beforeCapture (hp ▸ hidle) (hp ▸ hcapt)
  have drive {p p' : Phase} (hp : s.phase = p) (hidle : p ≠ .idle) (hcapt : p ≠ .capt) (hp' : 0 < tickLimit p') :
      Inv (tickDrive (tickLimit p) p' s) := by
    rw [← hp]
    exact (before hp hidle hcapt).inv_tickDrive hp'
  rcases tick_cases level s with ⟨_, ht⟩ | ⟨hp, ht⟩ | ⟨hp, ht⟩ | ⟨hp, ht⟩ | ⟨hp, ht⟩ | ⟨hp, _, ht⟩ | ⟨hp, hl, ht⟩ <;>
    rw [ht]
  · exact h
  · exact drive hp (by decide) (by decide) (by decide)
  · exact drive hp (by decide) (by decide) (by decide)
  · exact drive hp (by decide) (by decide) (by decide)
  · exact (before hp (by decide) (by decide)).inv_tickWait hp level
  · exact (h.capturing hp).inv_tickSame
  · exact (h.capturing hp).inv_tickChange hl

/-! `Inv` says nothing of OVR, the ports and the model's own fields. -/

theorem Inv.with_queue {s : State} (h : Inv s) (q : List Event) (n : Nat) : Inv { s with inputs := q, drawn := n } :=
  { h with }

theorem Inv.clearOutputs {s : State} (h : Inv s) : Inv (clearOutputs s) := { h with }

theorem Inv.hostRead {s : State} (h : Inv s) (a : RegIndex) : Inv (hostRead a s) := { h with }

theorem Inv.atWrite {s : State} (h : Inv s) (ok : Bool) : Inv (atWrite s ok) := { h with }

theorem Inv.overrun {s : State} (h : Inv s) : Inv (overrun s) := { h with }

theorem Inv.writeStatus {s : State} (h : Inv s) (d : Word) : Inv (writeStatus d s) := by
  unfold Machine.writeStatus
  split
  · exact { h with }
  · exact h

theorem inv_resetBlock (s : State) : Inv (resetBlock s) := { resetSatisfiesInv with }

/-- `Inv` binds the buffer of a busy block only. -/
theorem Inv.with_raw {s : State} (h : Inv s) (hs : s.phase = .idle) (r : RawSample) : Inv { s with raw := r } :=
  { h with nothingCollected := fun hb => absurd hs (busy_eq_true.mp hb) }

/-- Every effect of an event keeps the invariant. -/
theorem Inv.stepEffect {s t : State} {e : Event} (h : Inv s) (he : StepEffect s e t) : Inv t := by
  cases he with
  | reset | writeUnderReset | tickUnderReset => exact inv_resetBlock s
  | readUnderReset a => exact (inv_resetBlock s).hostRead a
  | hostRead a => exact h.clearOutputs.hostRead a
  | tick level => exact h.clearOutputs.tick level
  | writeStatus d ok => exact (h.atWrite ok).writeStatus d
  | discarded a d ok => exact (h.atWrite ok).overrun
  | ignored a d ok | nop ok => exact h.atWrite ok
  | writeCfg d ok hs => exact { h with }
  | writeRaw a k d ok ha hs => exact (h.atWrite ok).with_raw hs _
  | read ok hs => exact inv_startOperation (h.atWrite ok).countersBounded (.inl rfl)
  | sample ok hs => exact inv_startOperation (h.atWrite ok).countersBounded (.inr rfl)
  | interp ok hs =>
    exact inv_interpret { (h.atWrite ok).countersBounded with } { noResult_prologue s with } (.inr rfl)
  | reserved d ok hs =>
    exact inv_raiseFailure _ { (h.atWrite ok).countersBounded with } { noResult_prologue s with }

/-- Settles O41: a step is one event, placed or free, and every effect of an event keeps `Inv`. -/
theorem stepKeepsInv : Obligations.StepKeepsInv := by
  unfold Obligations.StepKeepsInv
  intro s t h hst
  obtain ⟨e, q, n, he⟩ := stepEffect_of_step hst
  exact (h.with_queue q n).stepEffect he

end Sys2Proof.Machine

/-! SUPPORT. Agreement of two states on all that an operation reads and writes (spec/10_state.md R21): every operation
keeps it, so every event and every run of placed events does. -/

namespace Sys2Proof.Machine

/-! ### The queue along a run -/

/-- No event changes the events placed after it. -/
theorem StepEffect.inputs_kept {s t : State} {e : Event} (h : StepEffect s e t) : t.inputs = s.inputs := by
  cases h with
  | writeStatus d ok => unfold Machine.writeStatus; split <;> rfl
  | reset | writeUnderReset | tickUnderReset | readUnderReset | hostRead | tick | discarded | ignored | writeCfg
  | writeRaw | nop | read | sample | interp | reserved => simp

/-! ### The shared operations -/

/-- A pushed bit changes RAW and BITCNT only (spec/40_decoder.md R132). -/
theorem pushBit_eq (b : Bool) (s : State) :
    pushBit b s = { s with raw := (pushBit b s).raw, bitcnt := s.bitcnt + 1 } := by
  unfold pushBit
  split <;> rfl

namespace Agree

variable {s t : State}

theorem with_queue (h : Agree s t) (q q' : List Event) :
    Agree { s with inputs := q } { t with inputs := q' } := { h with }

theorem clearOutputs (h : Agree s t) : Agree (clearOutputs s) (clearOutputs t) := { h with record := rfl }

theorem atWrite (h : Agree s t) (ok ok' : Bool) : Agree (atWrite s ok) (atWrite t ok') := { h with record := rfl }

theorem overrun (h : Agree s t) : Agree (overrun s) (overrun t) := { h with }

theorem hostRead (h : Agree s t) (a b : RegIndex) : Agree (hostRead a s) (hostRead b t) := { h with }

theorem resetBlock (s t : State) : Agree (resetBlock s) (resetBlock t) := by
  constructor <;> intros <;> rfl

theorem prologue (h : Agree s t) : Agree (prologue s) (prologue t) :=
  { h with done := rfl, err := rfl, rdv := rfl, csum := rfl, hum := rfl, temp := rfl }

theorem with_op (h : Agree s t) (o : Op) : Agree { s with op := o } { t with op := o } := { h with op := rfl }

/-- An idle block agrees on no hidden counter: none is read before the phase that starts it anew. -/
theorem of_idle (hs : s.phase = .idle) (ht : t.phase = .idle) (variant : s.variant = t.variant) (done : s.done = t.done)
    (rdv : s.rdv = t.rdv) (err : s.err = t.err) (bitcnt : s.bitcnt = t.bitcnt) (raw : s.raw = t.raw)
    (csum : s.csum = t.csum) (hum : s.hum = t.hum) (temp : s.temp = t.temp) (op : s.op = t.op)
    (record : s.record = t.record) : Agree s t where
  variant := variant
  done := done
  rdv := rdv
  err := err
  bitcnt := bitcnt
  raw := raw
  csum := csum
  hum := hum
  temp := temp
  op := op
  record := record
  phase := hs.trans ht.symm
  tcnt hidle := absurd hs hidle
  dur hcapt := by simp [hs] at hcapt
  idx hcapt := by simp [hs] at hcapt
  ref hcapt := by simp [hs] at hcapt

theorem raiseFailure (h : Agree s t) (f : Failure) : Agree (raiseFailure f s) (raiseFailure f t) :=
  of_idle rfl rfl h.variant rfl h.rdv rfl h.bitcnt h.raw h.csum h.hum h.temp h.op h.record

theorem finish (h : Agree s t) : Agree (finish s) (finish t) :=
  of_idle rfl rfl h.variant rfl h.rdv h.err h.bitcnt h.raw h.csum h.hum h.temp h.op h.record

theorem interpret (h : Agree s t) : Agree (interpret s) (interpret t) := by
  have hsum : checksum s.raw = checksum t.raw := by rw [h.raw]
  by_cases hm : checksum s.raw = s.raw.b4
  · rw [interpret_of_match hm, interpret_of_match (h.raw ▸ hm)]
    exact of_idle rfl rfl h.variant rfl rfl h.err h.bitcnt h.raw hsum (by simp [h.variant, h.raw])
      (by simp [h.variant, h.raw]) h.op h.record
  · rw [interpret_of_mismatch hm, interpret_of_mismatch (h.raw ▸ hm)]
    exact of_idle rfl rfl h.variant rfl h.rdv rfl h.bitcnt h.raw hsum h.hum h.temp h.op h.record

theorem endOfCapture (h : Agree s t) : Agree (endOfCapture s) (endOfCapture t) := by
  unfold Machine.endOfCapture
  rw [h.bitcnt, h.op]
  split
  · exact h.raiseFailure _
  · split
    · exact h.finish
    · exact h.interpret

/-- An acceptance leaves nothing of the states before it but VARIANT (spec/10_state.md R21). -/
theorem startOperation_of_same_variant (o : Op) (hv : s.variant = t.variant) (hc : s.cfgOk = t.cfgOk)
    (hr : s.record = t.record) : Agree (startOperation o s) (startOperation o t) := by
  cases hcfg : s.cfgOk with
  | true =>
    rw [startOperation_of_cfgOk hcfg, startOperation_of_cfgOk (hc ▸ hcfg)]
    constructor <;> simp [hv, hr]
  | false =>
    rw [startOperation_of_not_cfgOk hcfg, startOperation_of_not_cfgOk (hc ▸ hcfg)]
    exact of_idle rfl rfl hv rfl rfl rfl rfl rfl rfl rfl rfl rfl hr

theorem pushBit (h : Agree s t) (b : Bool) : Agree (pushBit b s) (pushBit b t) := by
  have hbits : s.bitcnt + 1 = t.bitcnt + 1 := by rw [h.bitcnt]
  have hraw : (Machine.pushBit b s).raw = (Machine.pushBit b t).raw := by
    simp only [Machine.pushBit, h.bitcnt, h.raw]
    split <;> rfl
  rw [pushBit_eq b s, pushBit_eq b t]
  exact { h with raw := hraw, bitcnt := hbits }

/-! ### The ticks -/

theorem closeRun (h : Agree s t) (hp : s.phase = .capt) : Agree (closeRun s) (closeRun t) := by
  have hrecord : some (Record.mk s.idx s.ref s.dur) = some (Record.mk t.idx t.ref t.dur) := by
    rw [h.idx hp, h.ref hp, h.dur hp]
  have recorded : Agree { s with record := some { index := s.idx, level := s.ref, dur := s.dur } }
      { t with record := some { index := t.idx, level := t.ref, dur := t.dur } } := { h with record := hrecord }
  unfold Machine.closeRun
  rw [h.idx hp, h.dur hp] at recorded ⊢
  split
  · exact recorded.pushBit _
  · exact recorded

theorem tickDrive (h : Agree s t) (hidle : s.phase ≠ .idle) (hcapt : s.phase ≠ .capt) (limit : Nat) (p : Phase)
    (hp : p ≠ .capt) : Agree (tickDrive limit p s) (tickDrive limit p t) := by
  have htcnt := h.tcnt hidle hcapt
  unfold Machine.tickDrive
  rw [htcnt]
  split
  · exact { h with
      phase := rfl, tcnt := fun _ _ => rfl, dur := fun hc => absurd hc hp, idx := fun hc => absurd hc hp
      ref := fun hc => absurd hc hp }
  · exact { h with tcnt := fun _ _ => rfl }

theorem tickWait (h : Agree s t) (hp : s.phase = .wait) (level : Level) :
    Agree (tickWait level s) (tickWait level t) := by
  have htcnt := h.tcnt (by simp [hp]) (by simp [hp])
  have counted : Agree { s with tcnt := s.tcnt + 1 } { t with tcnt := t.tcnt + 1 } :=
    { h with tcnt := fun _ _ => by rw [htcnt] }
  unfold Machine.tickWait
  rw [htcnt] at counted ⊢
  split
  · exact { h with
      phase := rfl, tcnt := fun _ hc => absurd rfl hc, dur := fun _ => rfl, idx := fun _ => rfl, ref := fun _ => rfl }
  · split
    · exact counted.raiseFailure _
    · exact counted

theorem tickSame (h : Agree s t) (hp : s.phase = .capt) : Agree (tickSame s) (tickSame t) := by
  have hdur := h.dur hp
  have longer : Agree { s with dur := s.dur + 1 } { t with dur := t.dur + 1 } :=
    { h with dur := fun _ => by rw [hdur] }
  unfold Machine.tickSame
  rw [hdur] at longer ⊢
  split
  · exact longer.endOfCapture
  · exact longer

theorem tickChange (h : Agree s t) (hp : s.phase = .capt) (level : Level) :
    Agree (tickChange level s) (tickChange level t) := by
  have hidx := h.idx hp
  have closed : Agree { Machine.closeRun s with ref := level, dur := 1, idx := s.idx + 1 }
      { Machine.closeRun t with ref := level, dur := 1, idx := t.idx + 1 } :=
    { h.closeRun hp with dur := fun _ => rfl, idx := fun _ => by rw [hidx], ref := fun _ => rfl }
  unfold Machine.tickChange
  rw [hidx] at closed ⊢
  split
  · exact closed.endOfCapture
  · exact closed

theorem tick (h : Agree s t) (level : Level) : Agree (tick level s) (tick level t) := by
  have hphase := h.phase
  cases hp : s.phase with
  | idle => rwa [tick_of_idle _ hp, tick_of_idle _ (hphase ▸ hp)]
  | wake =>
    rw [tick_of_wake _ hp, tick_of_wake _ (hphase ▸ hp)]
    exact h.tickDrive (by simp [hp]) (by simp [hp]) _ _ (by decide)
  | req =>
    rw [tick_of_req _ hp, tick_of_req _ (hphase ▸ hp)]
    exact h.tickDrive (by simp [hp]) (by simp [hp]) _ _ (by decide)
  | rel =>
    rw [tick_of_rel _ hp, tick_of_rel _ (hphase ▸ hp)]
    exact h.tickDrive (by simp [hp]) (by simp [hp]) _ _ (by decide)
  | wait =>
    rw [tick_of_wait _ hp, tick_of_wait _ (hphase ▸ hp)]
    exact h.tickWait hp level
  | capt =>
    by_cases hl : level = s.ref
    · obtain rfl := hl
      rw [tick_of_capt_same hp, h.ref hp, tick_of_capt_same (hphase ▸ hp)]
      exact h.tickSame hp
    · rw [tick_of_capt_change hp hl, tick_of_capt_change (hphase ▸ hp) (h.ref hp ▸ hl)]
      exact h.tickChange hp level

end Agree

/-! ### The events -/

/-- Both outcomes are next states, and they agree. -/
def AgreeNext (x y : Host.Outcome State Fault Refusal) : Prop := ∃ s t, x = .next s ∧ y = .next t ∧ Agree s t

theorem Agree.next {s t : State} (h : Agree s t) : AgreeNext (.next s) (.next t) := ⟨s, t, rfl, rfl, h⟩

namespace Agree

variable {s t : State}

theorem whenIdle {f : State → State} (h : Agree s t) (hf : s.phase = .idle → Agree (f s) (f t)) :
    AgreeNext (whenIdle f s) (whenIdle f t) := by
  by_cases hs : s.phase = .idle
  · rw [whenIdle_of_idle hs, whenIdle_of_idle (h.phase ▸ hs)]
    exact (hf hs).next
  · rw [whenIdle_of_busy hs, whenIdle_of_busy (h.phase ▸ hs)]
    exact h.overrun.next

theorem exec (h : Agree s t) (hc : s.cfgOk = t.cfgOk) (i : Instr) : AgreeNext (exec i s) (exec i t) := by
  cases i with
  | nop => exact h.whenIdle (f := fun s => s) fun _ => h
  | read => exact h.whenIdle fun _ => startOperation_of_same_variant _ h.variant hc h.record
  | sample => exact h.whenIdle fun _ => startOperation_of_same_variant _ h.variant hc h.record
  | interp =>
    exact h.whenIdle (f := fun s => Machine.interpret { Machine.prologue s with op := .interp })
      fun _ => (h.prologue.with_op .interp).interpret

theorem writeCmd (h : Agree s t) (hc : s.cfgOk = t.cfgOk) (d : Word) : AgreeNext (writeCmd d s) (writeCmd d t) := by
  unfold Machine.writeCmd
  cases decode d with
  | ok i => exact h.exec hc i
  | error e => exact h.whenIdle fun _ => (h.prologue.with_op _).raiseFailure _

theorem writeCfg (h : Agree s t) (d : Word) : AgreeNext (writeCfg d s) (writeCfg d t) :=
  h.whenIdle fun _ => { h with variant := rfl }

theorem writeStatus (h : Agree s t) (d : Word) : Agree (writeStatus d s) (writeStatus d t) := by
  unfold Machine.writeStatus
  split
  · exact { h with }
  · exact h

theorem writeRaw (h : Agree s t) (k : Fin 5) (d : Word) : AgreeNext (writeRaw k d s) (writeRaw k d t) :=
  h.whenIdle fun _ => { h with raw := by rw [h.raw] }

theorem hostWrite (h : Agree s t) (hc : s.cfgOk = t.cfgOk) (a : RegIndex) (d : Word) :
    AgreeNext (hostWrite a d s) (hostWrite a d t) := by
  unfold Machine.hostWrite
  split
  · exact h.writeCmd hc d
  · exact h.writeCfg d
  · exact (h.writeStatus d).next
  · exact h.writeRaw 0 d
  · exact h.writeRaw 1 d
  · exact h.writeRaw 2 d
  · exact h.writeRaw 3 d
  · exact h.writeRaw 4 d
  · exact h.next

/-- Every event keeps agreement. -/
theorem takeEvent (h : Agree s t) (e : Event) : AgreeNext (takeEvent e s) (takeEvent e t) := by
  cases e with
  | reset => exact (resetBlock s t).next
  | underReset x =>
    cases x with
    | hostRead a => exact ((resetBlock s t).hostRead a a).next
    | hostWrite | tick => exact (resetBlock s t).next
  | access x =>
    cases x with
    | hostWrite a d ok => exact (h.atWrite ok ok).hostWrite rfl a d
    | hostRead a => exact (h.clearOutputs.hostRead a a).next
    | tick level => exact (h.clearOutputs.tick level).next

/-! ### The runs -/

/-- Every step on the same placed event keeps agreement. -/
theorem step (h : Agree s t) {e : Event} {rest : List Event} (hs : NextIs s e rest) (ht : NextIs t e rest) :
    ∃ s' t', step s = .next s' ∧ step t = .next t' ∧ s'.inputs = rest ∧ t'.inputs = rest ∧ Agree s' t' := by
  obtain ⟨s', t', hs', ht', h'⟩ := (h.with_queue rest rest).takeEvent e
  have hstep := (step_of_placed hs).trans hs'
  have htstep := (step_of_placed ht).trans ht'
  exact ⟨s', t', hstep, htstep, (stepEffect_of_placed hs hstep).inputs_kept, (stepEffect_of_placed ht htstep).inputs_kept,
    h'⟩

/-- Agreement is kept along every run of placed events (spec/40_decoder.md R140). -/
theorem runSteps {events : List Event} : ∀ {s t : State}, Agree s t → s.inputs = events → t.inputs = events →
    ∃ s' t', runSteps events.length s = .next s' ∧ runSteps events.length t = .next t' ∧ Agree s' t' := by
  induction events with
  | nil => intro s t h _ _; exact ⟨s, t, rfl, rfl, h⟩
  | cons e rest ih =>
    intro s t h hs ht
    obtain ⟨s₁, t₁, hs₁, ht₁, hsq, htq, h₁⟩ := h.step hs ht
    rw [List.length_cons, runSteps_of_step hs₁, runSteps_of_step ht₁]
    exact ih h₁ hsq htq

end Agree

/-! ### Two histories -/

/-- The step on the command word of READ or SAMPLE, while idle, is its acceptance. -/
theorem step_of_acceptance {s : State} {d : Word} {o : Op} {ok : Bool} {rest : List Event}
    (hd : (d = 1 ∧ o = .read) ∨ (d = 2 ∧ o = .sample)) (hs : s.phase = .idle)
    (hn : NextIs s (.hostWrite 0 d ok) rest) :
    step s = .next (startOperation o { atAccess s rest with cfgOk := ok }) := by
  rw [step_of_hostWrite hn]
  rcases hd with ⟨rfl, rfl⟩ | ⟨rfl, rfl⟩
  · exact whenIdle_of_idle (f := startOperation .read) hs
  · exact whenIdle_of_idle (f := startOperation .sample) hs

/-- Settles O45: the acceptance makes the two states agree, and every later event keeps the agreement. -/
theorem operationDependsOnNothingEarlier : Obligations.OperationDependsOnNothingEarlier := by
  unfold Obligations.OperationDependsOnNothingEarlier
  intro s t d ok events hd hs ht hv hsq htq
  obtain ⟨o, ho⟩ : ∃ o : Op, (d = 1 ∧ o = .read) ∨ (d = 2 ∧ o = .sample) :=
    hd.elim (fun h => ⟨.read, .inl ⟨h, rfl⟩⟩) (fun h => ⟨.sample, .inr ⟨h, rfl⟩⟩)
  have accepted : Agree (startOperation o { atAccess s events with cfgOk := ok })
      (startOperation o { atAccess t events with cfgOk := ok }) :=
    .startOperation_of_same_variant o hv rfl rfl
  rw [runSteps_of_step (step_of_acceptance ho hs hsq), runSteps_of_step (step_of_acceptance ho ht htq)]
  exact accepted.runSteps (by simp) (by simp)

end Sys2Proof.Machine

/-! SUPPORT. The host register space (spec/20_memory.md): what a write does to a busy and to an idle block, what a read
answers, the write read back, and what an idle block keeps. -/

namespace Sys2Proof.Machine

/-! ### The command register -/

/-- A command word runs its command (spec/30_encoding.md R90). -/
theorem writeCmd_of_decode {d : Word} {i : Instr} (h : decode d = .ok i) (s : State) : writeCmd d s = exec i s := by
  simp [writeCmd, h]

/-- Settles O4: a write to index 0 is `writeCmd`, which runs the decoded command. -/
theorem stepRunsDecodedCommand : Obligations.StepRunsDecodedCommand := by
  unfold Obligations.StepRunsDecodedCommand
  intro s d ok rest i hn hd _
  calc step s = writeCmd d { atAccess s rest with cfgOk := ok } := step_of_hostWrite hn
    _ = exec i { atAccess s rest with cfgOk := ok } := writeCmd_of_decode hd _

/-! ### Ticks that do not sample -/

/-- Outside WAIT and CAPT a tick does the same with either sample (spec/20_memory.md R70). -/
theorem tick_eq_of_not_sampling {s : State} (hwait : s.phase ≠ .wait) (hcapt : s.phase ≠ .capt) (x y : Level) :
    tick x s = tick y s := by
  cases hp : s.phase with
  | idle => rw [tick_of_idle x hp, tick_of_idle y hp]
  | wake => rw [tick_of_wake x hp, tick_of_wake y hp]
  | req => rw [tick_of_req x hp, tick_of_req y hp]
  | rel => rw [tick_of_rel x hp, tick_of_rel y hp]
  | wait => exact absurd hp hwait
  | capt => exact absurd hp hcapt

/-- Settles O30: with the tick taken from the queue the two states are the same. -/
theorem sampleMattersOnlyInWaitAndCapture : Obligations.SampleMattersOnlyInWaitAndCapture := by
  unfold Obligations.SampleMattersOnlyInWaitAndCapture
  rintro s t x y rest hwait hcapt hn rfl
  have same_state : atAccess { s with inputs := .tick y :: rest } rest = atAccess s rest := rfl
  have same_tick : tick y (atAccess s rest) = tick x (atAccess s rest) :=
    tick_eq_of_not_sampling (s := atAccess s rest) hwait hcapt y x
  rw [step_of_tick hn, step_of_tick (s := { s with inputs := .tick y :: rest }) rfl, same_state, same_tick]

/-! ### Writes to a busy block -/

/-- A busy block discards every word written to CMD (spec/20_memory.md R64). -/
theorem writeCmd_of_busy {s : State} (h : s.phase ≠ .idle) (d : Word) : writeCmd d s = .next (overrun s) := by
  rcases writeCmd_cases d s with ⟨i, _, hw⟩ | ⟨_, hw⟩ <;> rw [hw]
  · rcases exec_cases i s with ⟨_, he⟩ | ⟨hidle, _⟩
    · exact he
    · exact absurd hidle h
  · exact whenIdle_of_busy h

/-- STATUS, BITCNT and the indices above RAW are not guarded (spec/20_memory.md R63). -/
theorem not_guardedIndex {a : RegIndex} (h : a.toNat = 2 ∨ a.toNat = 3 ∨ 8 < a.toNat) : ¬ guardedIndex a := by
  rintro (rfl | rfl | rfl | rfl | rfl | rfl | rfl) <;> exact absurd h (by decide)

/-- A write to a guarded index of a busy block sets OVR and does nothing else (spec/20_memory.md R64). -/
theorem hostWrite_of_busy {s : State} {a : RegIndex} (h : s.phase ≠ .idle) (ha : guardedIndex a) (d : Word) :
    hostWrite a d s = .next (overrun s) := by
  rcases hostWrite_cases a d s with ⟨_, hw⟩ | ⟨_, hw⟩ | ⟨rfl, _⟩ | ⟨k, _, hw⟩ | ⟨hign, _⟩
  · rw [hw, writeCmd_of_busy h]
  · rw [hw]; exact whenIdle_of_busy h
  · exact absurd ha (not_guardedIndex (.inl rfl))
  · rw [hw]; exact whenIdle_of_busy h
  · exact absurd ha (not_guardedIndex (.inr (hign.imp_left (congrArg BitVec.toNat))))

/-- Settles O14: the step is the write, and the write is discarded. -/
theorem busyBlockDiscardsGuardedWrites : Obligations.BusyBlockDiscardsGuardedWrites := by
  unfold Obligations.BusyBlockDiscardsGuardedWrites
  intro s a d ok rest hn ha hs
  exact (step_of_hostWrite hn).trans (hostWrite_of_busy (s := { atAccess s rest with cfgOk := ok }) hs ha d)

/-! ### Writes to an idle block -/

/-- The index of RAW[k] is 4 + k (spec/20_memory.md R61). -/
theorem rawIndex_eq {a : RegIndex} {k : Fin 5} (h : a.toNat = 4 + k.val) : a = BitVec.ofNat 4 (4 + k.val) :=
  BitVec.eq_of_toNat_eq (by rw [← h, BitVec.ofNat_toNat, BitVec.setWidth_eq])

/-- A write to the index of RAW[k] is `writeRaw k` (spec/20_memory.md R63). -/
theorem hostWrite_raw {a : RegIndex} {k : Fin 5} (h : a.toNat = 4 + k.val) (d : Word) (s : State) :
    hostWrite a d s = writeRaw k d s := by
  rw [rawIndex_eq h]
  clear h
  fin_cases k <;> rfl

/-- Bits 7:0 of a word as a number. -/
theorem extractLsb'_low_eq (d : Word) : d.extractLsb' 0 8 = BitVec.ofNat 8 (d.toNat % 256) :=
  BitVec.eq_of_toNat_eq (by simp)

/-- Bits 15:8 of a word as a number. -/
theorem extractLsb'_high_eq (d : Word) : d.extractLsb' 8 8 = BitVec.ofNat 8 (d.toNat / 256) :=
  BitVec.eq_of_toNat_eq (by simp [Nat.shiftRight_eq_div_pow])

/-- A write to STATUS is an update of OVR alone (spec/10_state.md R29). -/
theorem writeStatus_eq (d : Word) (s : State) :
    writeStatus d s = { s with ovr := if d.getLsbD 3 then false else s.ovr } := by
  unfold writeStatus
  split <;> rfl

/-- What a write to CFG of an idle block does, with its fields as numbers (spec/10_state.md R22). -/
theorem writeCfg_of_idle {s : State} (h : s.phase = .idle) (d : Word) :
    writeCfg d s = .next { s with
      variant := if d.getLsbD 0 then .b else .a, pin := BitVec.ofNat 8 (d.toNat / 256) } := by
  rw [← extractLsb'_high_eq]
  exact whenIdle_of_idle h

/-- What a write to RAW[k] of an idle block does, with its byte as a number (spec/20_memory.md R65). -/
theorem writeRaw_of_idle {s : State} (h : s.phase = .idle) (k : Fin 5) (d : Word) :
    writeRaw k d s = .next { s with raw := setRawByte s.raw k (BitVec.ofNat 8 (d.toNat % 256)) } := by
  rw [← extractLsb'_low_eq]
  exact whenIdle_of_idle h

/-- Settles O15: a busy block discards the write; else the index tells the register. -/
theorem hostWriteFollowsTable : Obligations.HostWriteFollowsTable := by
  unfold Obligations.HostWriteFollowsTable
  intro s a d ok rest hn
  rw [step_of_hostWrite hn]
  by_cases hbusy : guardedIndex a ∧ s.phase ≠ .idle
  · obtain ⟨ha, hs⟩ := hbusy
    have not_status : a ≠ 2 := fun h => not_guardedIndex (.inl (congrArg BitVec.toNat h)) ha
    rw [if_neg not_status, if_pos ⟨ha, hs⟩]
    exact hostWrite_of_busy (s := { atAccess s rest with cfgOk := ok }) hs ha d
  · have idle_of_guarded (ha : guardedIndex a) : ({ atAccess s rest with cfgOk := ok } : State).phase = .idle :=
      not_not.mp fun hs => hbusy ⟨ha, hs⟩
    rcases hostWrite_cases a d { atAccess s rest with cfgOk := ok } with
      ⟨rfl, hw⟩ | ⟨rfl, hw⟩ | ⟨rfl, hw⟩ | ⟨k, hk, hw⟩ | ⟨hign, hw⟩ <;> rw [hw]
    · rw [if_neg (by decide), if_neg hbusy, if_neg (by decide), dif_neg (by decide), if_pos rfl]
    · rw [if_neg (by decide), if_neg hbusy, if_pos rfl]
      exact writeCfg_of_idle (idle_of_guarded (by decide)) d
    · rw [if_pos rfl, writeStatus_eq]
      rfl
    · obtain ⟨hguarded, not_status⟩ := guardedIndex_of_rawIndex hk
      have hraw : 4 ≤ a.toNat ∧ a.toNat ≤ 8 := by omega
      have not_cfg : a ≠ 1 := by rintro rfl; exact absurd hraw (by decide)
      have hindex : (⟨a.toNat - 4, by omega⟩ : Fin 5) = k := Fin.ext (by simp [hk])
      rw [if_neg not_status, if_neg hbusy, if_neg not_cfg, dif_pos hraw, hindex]
      exact writeRaw_of_idle (idle_of_guarded hguarded) k d
    · have hign' : a.toNat = 3 ∨ 8 < a.toNat := hign.imp_left (congrArg BitVec.toNat)
      have not_guarded : ¬ guardedIndex a := not_guardedIndex (.inr hign')
      have not_status : a ≠ 2 := by rintro rfl; exact absurd hign (by decide)
      rw [if_neg not_status, if_neg hbusy, if_neg fun h => not_guarded (.inr (.inl h)), dif_neg (by omega),
        if_neg fun h => not_guarded (.inl h)]

/-! ### Reads -/

/-- The read column of the map for RAW as a number (spec/20_memory.md R61). -/
theorem readReg_raw_toNat {a : RegIndex} {k : Fin 5} (h : a.toNat = 4 + k.val) (s : State) :
    (readReg a s).toNat = (rawByte s.raw k).toNat := by
  have hread : readReg a s = (rawByte s.raw k).zeroExtend 16 := by
    rw [rawIndex_eq h]
    clear h
    fin_cases k <;> rfl
  rw [hread]
  exact BitVec.toNat_setWidth_of_le (by decide)

/-- The read column of the map for STATUS as a number (spec/10_state.md R25, R26). -/
theorem readReg_status_toNat (s : State) :
    (readReg 2 s).toNat =
      (phaseCode s.phase).toNat * 256 + (errCode s.err).toNat * 16 + s.ovr.toNat * 8 + s.rdv.toNat * 4 +
        s.done.toNat * 2 + (if s.phase = .idle then 0 else 1) := by
  refine (statusWord_toNat s).trans (congrArg _ ?_)
  by_cases h : s.phase = .idle <;> simp [busy, h]

/-- The read column of the map above TEMP (spec/20_memory.md R61). -/
theorem readReg_unmapped {a : RegIndex} (h : 12 ≤ a.toNat) (s : State) : readReg a s = 0 := by
  unfold readReg
  split
  case h_13 => rfl
  all_goals omega

/-- Settles O17: one entry of the map for each index. -/
theorem hostReadAnswersMap : Obligations.HostReadAnswersMap := by
  unfold Obligations.HostReadAnswersMap
  intro s a rest hn
  refine ⟨readReg a s, step_of_hostRead hn, ?_⟩
  -- STATUS's entry folded into its register, so that the branches are those of the index alone
  rw [← readReg_status_toNat s]
  split_ifs with hcmd hcfg hstatus hbitcnt hraw hcsum hhum htemp
  · subst hcmd; exact BitVec.toNat_setWidth_of_le (b := opCode s.op) (by decide)
  · subst hcfg; exact cfgWord_toNat s
  · subst hstatus; rfl
  · subst hbitcnt; exact BitVec.toNat_setWidth_of_le (b := s.bitcnt) (by decide)
  · exact readReg_raw_toNat (by dsimp only; omega) s
  · subst hcsum; exact BitVec.toNat_setWidth_of_le (b := s.csum) (by decide)
  · subst hhum; rfl
  · subst htemp; rfl
  · have unmapped : 12 ≤ a.toNat := by bv_omega
    rw [readReg_unmapped unmapped]
    rfl

/-! ### A write read back -/

/-- A step and the read placed after it: the read answers the map's value in the state that the step left. -/
theorem runSteps_two_of_read {s t : State} {a : RegIndex} {rest : List Event} (hst : step s = .next t)
    (hq : t.inputs = .hostRead a :: rest) :
    ∃ u, runSteps 2 s = .next u ∧ u.inputs = rest ∧ u.rdata = some (readReg a t) :=
  ⟨hostRead a (atAccess t rest), by rw [runSteps_of_step hst, runSteps_of_step (step_of_hostRead hq), runSteps_zero],
    rfl, rfl⟩

/-- CFG reads the PIN and the VARIANT just written to it, and 0 in its reserved bits (spec/10_state.md R22). -/
theorem readReg_cfg_toNat_of_written {t : State} {d : Word} (hv : t.variant = if d.getLsbD 0 then .b else .a)
    (hp : t.pin = BitVec.ofNat 8 (d.toNat / 256)) : (readReg 1 t).toNat = d.toNat / 256 * 256 + d.toNat % 2 := by
  have hd := d.isLt
  have hpin : t.pin.toNat = d.toNat / 256 := by
    rw [hp, BitVec.toNat_ofNat]
    omega
  have hbit : (variantBit t.variant).toNat = d.toNat % 2 := by
    rw [hv, BitVec.getLsbD, Nat.testBit_zero]
    rcases Nat.mod_two_eq_zero_or_one d.toNat with h | h <;> simp [h, variantBit]
  rw [← hpin, ← hbit]
  exact cfgWord_toNat t

/-- RAW[k] reads the byte just written to it (spec/10_state.md R32). -/
theorem readReg_raw_toNat_of_written {t : State} {a : RegIndex} {k : Fin 5} {r : RawSample} {d : Word}
    (ha : a.toNat = 4 + k.val) (hr : t.raw = setRawByte r k (BitVec.ofNat 8 (d.toNat % 256))) :
    (readReg a t).toNat = d.toNat % 256 := by
  rw [readReg_raw_toNat ha, hr, rawByte_setRawByte, if_pos rfl, BitVec.toNat_ofNat]
  omega

/-- Settles O19: the write is the one of `writeCfg` or `writeRaw`, and the read answers what it wrote. -/
theorem idleWriteIsReadBack : Obligations.IdleWriteIsReadBack := by
  unfold Obligations.IdleWriteIsReadBack
  intro s a d ok rest hn hs ha
  have hidle : ({ atAccess s (.hostRead a :: rest) with cfgOk := ok } : State).phase = .idle := hs
  have hwrite := step_of_hostWrite hn
  rcases ha with rfl | hraw
  · obtain ⟨u, hrun, hq, hread⟩ := runSteps_two_of_read (hwrite.trans (writeCfg_of_idle hidle d)) rfl
    exact ⟨u, _, hrun, hq, hread, readReg_cfg_toNat_of_written rfl rfl⟩
  · obtain ⟨k, hk⟩ : ∃ k : Fin 5, a.toNat = 4 + k.val := ⟨⟨a.toNat - 4, by omega⟩, by dsimp only; omega⟩
    have not_cfg : a ≠ 1 := by rintro rfl; exact absurd hraw (by decide)
    obtain ⟨u, hrun, hq, hread⟩ :=
      runSteps_two_of_read (hwrite.trans ((hostWrite_raw hk d _).trans (writeRaw_of_idle hidle k d))) rfl
    rw [if_neg not_cfg]
    exact ⟨u, _, hrun, hq, hread, readReg_raw_toNat_of_written hk rfl⟩

/-! ### What an idle block keeps -/

/-- `t`, the state after the event `e`, has the results of `s`, and RAW where `e` does not write it
(spec/20_memory.md R68). -/
structure ResultsKept (s : State) (e : Event) (t : State) : Prop where
  done : t.done = s.done
  rdv : t.rdv = s.rdv
  err : t.err = s.err
  bitcnt : t.bitcnt = s.bitcnt
  csum : t.csum = s.csum
  hum : t.hum = s.hum
  temp : t.temp = s.temp
  op : t.op = s.op
  phase : t.phase = s.phase
  raw : (∀ a d ok, e = .hostWrite a d ok → a.toNat < 4 ∨ 8 < a.toNat) → t.raw = s.raw

/-- An idle block keeps its results in every event that is no reset and no command but NOP. -/
theorem StepEffect.resultsKept {s t : State} {e : Event} (h : StepEffect s e t) (hs : s.phase = .idle)
    (hreset : e ≠ .reset) (hunder : ∀ x, e ≠ .underReset x) (hcmd : ∀ d ok, e = .hostWrite 0 d ok → d = 0) :
    ResultsKept s e t := by
  cases h with
  | reset => exact absurd rfl hreset
  | writeUnderReset | tickUnderReset | readUnderReset => exact absurd rfl (hunder _)
  | read ok | sample ok | interp ok => exact absurd (hcmd _ ok rfl) (by decide)
  | reserved d ok _ hd =>
    obtain rfl := hcmd d ok rfl
    exact absurd hd (by decide)
  | discarded a d ok hbusy => exact absurd hs hbusy
  | tick level =>
    rw [tick_of_idle (s := Machine.clearOutputs s) level hs]
    constructor <;> simp
  | writeStatus d ok =>
    rw [writeStatus_eq]
    constructor <;> simp
  | writeRaw a k d ok ha =>
    refine ⟨rfl, rfl, rfl, rfl, rfl, rfl, rfl, rfl, rfl, fun hraw => ?_⟩
    exact absurd (hraw a d ok rfl) (by omega)
  | hostRead | ignored | writeCfg | nop => constructor <;> simp

/-- Settles O37: `ResultsKept` read field by field. -/
theorem idleResultsAreStable : Obligations.IdleResultsAreStable := by
  unfold Obligations.IdleResultsAreStable
  intro s t e rest hn hst hs hreset hunder hcmd
  have kept := (stepEffect_of_placed hn hst).resultsKept hs hreset hunder hcmd
  exact ⟨kept.done, kept.rdv, kept.err, kept.bitcnt, kept.csum, kept.hum, kept.temp, kept.op, kept.phase.trans hs,
    kept.raw⟩

end Sys2Proof.Machine

/-! SUPPORT. The encoding (spec/30_encoding.md): the decoder against the encoder over all words, and the events of the
pseudo-instructions. -/

namespace Sys2Proof.Machine

/-! ### The decoder and the encoder -/

/-- The family over the commands, put together. -/
theorem assignedWords_statement (i : Instr) : Laws.AssignedWords.Statement i := by
  cases i with
  | nop => exact Laws.AssignedWords.nop
  | read => exact Laws.AssignedWords.read
  | sample => exact Laws.AssignedWords.sample
  | interp => exact Laws.AssignedWords.interp

/-- No command's word is in the reserved range (spec/30_encoding.md R92). -/
theorem encode_toNat_lt_four (i : Instr) : (encode i).toNat < 4 := by
  obtain ⟨-, hassigned⟩ := assignedWords_statement i
  exact of_decide_eq_true hassigned

/-- All 16 bits of the word are compared (spec/30_encoding.md R90). -/
theorem decode_eq_ok_iff {d : Word} {i : Instr} : decode d = .ok i ↔ d = encode i := by
  constructor
  · exact decode_eq_ok
  · rintro rfl
    exact decode_encode_eq i

/-- The rejection names the rejected word (spec/30_encoding.md R92). -/
theorem decode_eq_reservedWord_iff {d : Word} : decode d = .error (.reservedWord d) ↔ 4 ≤ d.toNat := by
  constructor
  · intro h
    exact (decode_eq_error h).right
  · intro h4
    cases h : decode d with
    | ok i =>
      obtain rfl := decode_eq_ok h
      exact absurd (encode_toNat_lt_four i) (by omega)
    | error e =>
      obtain ⟨rfl, -⟩ := decode_eq_error h
      rfl

/-- `decode` is a left inverse of `encode`, so no two commands share a word. -/
theorem encode_injective : Function.Injective encode := by
  intro i j h
  have hij : decode (encode i) = .ok j := decode_eq_ok_iff.mpr h
  rw [decode_encode_eq] at hij
  exact Except.ok.inj hij

/-- Settles O1: the four words are the commands' encodings. -/
theorem commandWordsDecode : Obligations.CommandWordsDecode := by
  unfold Obligations.CommandWordsDecode
  exact ⟨decode_encode_eq .nop, decode_encode_eq .read, decode_encode_eq .sample, decode_encode_eq .interp⟩

/-- Settles O2, for each word by the two characterisations of the decoder's answers. -/
theorem decoderIsTotalAndExact : Obligations.DecoderIsTotalAndExact := by
  unfold Obligations.DecoderIsTotalAndExact
  exact fun _ => ⟨fun _ => decode_eq_ok_iff, decode_eq_reservedWord_iff⟩

/-- Settles O3 by the round trip; well-formedness, which every command has (spec/30_encoding.md R93), is not needed. -/
theorem decodeAndEncodeAgree : Obligations.DecodeAndEncodeAgree := by
  unfold Obligations.DecodeAndEncodeAgree
  exact fun i _ => ⟨decode_encode_eq i, fun _ h => encode_injective h⟩

/-! ### The pseudo-instructions -/

/-- A command's pseudo-instruction is the write of its word to CMD. -/
theorem expand_command_events (i : Instr) :
    (expand (.command i)).flatMap lineEvents = [.hostWrite 0 (encode i) true] := rfl

/-- `SETVAR` is the write to CFG of the variant's bit, with PIN 0. -/
theorem expand_setvar_events (v : Variant) :
    (expand (.setvar v)).flatMap lineEvents = [.hostWrite 1 ((BitVec.ofBool (variantBit v)).zeroExtend 16) true] := rfl

/-- `SETRAW` is the writes of the five bytes, in order, to RAW0 to RAW4. -/
theorem expand_setraw_events (r : RawSample) :
    (expand (.setraw r)).flatMap lineEvents =
      [.hostWrite 4 (r.b0.zeroExtend 16) true, .hostWrite 5 (r.b1.zeroExtend 16) true,
        .hostWrite 6 (r.b2.zeroExtend 16) true, .hostWrite 7 (r.b3.zeroExtend 16) true,
        .hostWrite 8 (r.b4.zeroExtend 16) true] := rfl

/-- Settles O50, one pseudo-instruction at a time; a tick line and the lines of one event are their own definitions. -/
theorem pseudoInstructionsExpand : Obligations.PseudoInstructionsExpand := by
  unfold Obligations.PseudoInstructionsExpand
  refine ⟨?nop, ?read, ?sample, ?interp, ?setvarA, ?setvarB, ?setraw, ?clrovr, ?handshake, ?ticks, ?waitdone⟩
  case nop => exact expand_command_events .nop
  case read => exact expand_command_events .read
  case sample => exact expand_command_events .sample
  case interp => exact expand_command_events .interp
  case setvarA => exact expand_setvar_events .a
  case setvarB => exact expand_setvar_events .b
  case setraw => exact expand_setraw_events
  case clrovr => rfl
  case handshake => rfl
  case ticks => intros; rfl
  case waitdone => rfl

end Sys2Proof.Machine

/-! SUPPORT. The sequencer one event at a time (spec/40_decoder.md): the acceptance, the ticks of each phase, the bit
packer and the end of a capture; and agreement along runs. -/

namespace Sys2Proof.Machine

/-- Settles O46: every placed event keeps `Agree` (`Agree.takeEvent`), so every run of them does. -/
theorem agreementIsKeptAlongRuns : Obligations.AgreementIsKeptAlongRuns := by
  unfold Obligations.AgreementIsKeptAlongRuns
  intro s t events h hs ht
  exact h.runSteps hs ht

/-! ### Acceptance -/

/-- While idle the meaning of READ and of SAMPLE is the acceptance of its operation. -/
theorem exec_of_accepts {s : State} {i : Instr} {o : Op}
    (hio : (i = .read ∧ o = .read) ∨ (i = .sample ∧ o = .sample)) (hs : s.phase = .idle) :
    exec i s = .next (startOperation o s) := by
  rcases hio with ⟨rfl, rfl⟩ | ⟨rfl, rfl⟩
  · exact whenIdle_of_idle (f := startOperation .read) hs
  · exact whenIdle_of_idle (f := startOperation .sample) hs

/-- Settles O8: with `cfg_ok` = 1 the acceptance enters WAKE, where both line outputs are 1. -/
theorem acceptedReadOrSampleStartsHandshake : Obligations.AcceptedReadOrSampleStartsHandshake := by
  unfold Obligations.AcceptedReadOrSampleStartsHandshake
  intro s i o hio hs hcfg
  have hstart := startOperation_of_cfgOk (o := o) hcfg
  have hwake : (startOperation o s).phase = .wake := by rw [hstart]
  exact ⟨_, exec_of_accepts hio hs, lineOe_eq_true.mpr (.inl hwake), lineOut_eq_true.mpr (.inl hwake), hstart⟩

/-! ### The ticks before the capture -/

/-- Settles O29: the step is the tick, and a tick while idle is nothing. -/
theorem idleTickChangesNothing : Obligations.IdleTickChangesNothing := by
  unfold Obligations.IdleTickChangesNothing
  intro s level rest hs hn
  exact (step_of_tick hn).trans (congrArg _ (tick_of_idle (s := atAccess s rest) level hs))

/-- Settles O20: in each of the three phases the tick is `tickDrive` with that phase's limit and successor. -/
theorem handshakeTickCounts : Obligations.HandshakeTickCounts := by
  unfold Obligations.HandshakeTickCounts
  intro s level rest limit next hphase hn
  have tick_eq : tick level (atAccess s rest) = tickDrive limit next (atAccess s rest) := by
    rcases hphase with ⟨hp, rfl, rfl⟩ | ⟨hp, rfl, rfl⟩ | ⟨hp, rfl, rfl⟩
    · exact tick_of_wake (s := atAccess s rest) level hp
    · exact tick_of_req (s := atAccess s rest) level hp
    · exact tick_of_rel (s := atAccess s rest) level hp
  exact (step_of_tick hn).trans (congrArg _ tick_eq)

/-- A low sample ends WAIT (spec/40_decoder.md R125). -/
theorem tickWait_low (s : State) : tickWait false s = { s with phase := .capt, ref := true, dur := 0, idx := 0 } := by
  simp [tickWait]

/-- A high sample short of the last is counted (spec/40_decoder.md R126). -/
theorem tickWait_high {s : State} (h : (s.tcnt + 1).toNat ≠ 32000) :
    tickWait true s = { s with tcnt := s.tcnt + 1 } := by
  rw [tickWait, if_neg (by decide)]
  exact if_neg h

/-- The last high sample raises Timeout (spec/40_decoder.md R126). -/
theorem tickWait_timeout {s : State} (h : (s.tcnt + 1).toNat = 32000) :
    tickWait true s = raiseFailure .timeout { s with tcnt := s.tcnt + 1 } := by
  rw [tickWait, if_neg (by decide)]
  exact if_pos h

/-- Settles O22: the step is `tickWait`, one equation for each of its three outcomes. -/
theorem waitTickLooksForLow : Obligations.WaitTickLooksForLow := by
  unfold Obligations.WaitTickLooksForLow
  intro s level rest hp hn
  rw [step_of_tick hn, tick_of_wait (s := atAccess s rest) level hp]
  refine ⟨?low, ?high, ?last⟩
  case low => rintro rfl; rw [tickWait_low]
  case high => rintro rfl hne; rw [tickWait_high (s := atAccess s rest) hne]; rfl
  case last => rintro rfl heq; rw [tickWait_timeout (s := atAccess s rest) heq]; rfl

/-! ### The line that stays high -/

/-- Fewer than 32000 high samples from the start of WAIT are counted, and nothing else happens. -/
theorem clearOutputs_foldl_high {s : State} (hp : s.phase = .wait) (h0 : s.tcnt = 0) (n : Nat) (hn : n < 32000) :
    clearOutputs ((List.replicate n true).foldl tickStep s) = { clearOutputs s with tcnt := BitVec.ofNat 18 n } := by
  induction n with
  | zero => exact congrArg (fun c => { clearOutputs s with tcnt := c }) h0
  | succ n ih =>
    have count : ((BitVec.ofNat 18 n + 1 : BitVec 18)).toNat ≠ 32000 := by
      rw [BitVec.toNat_add, BitVec.toNat_ofNat]
      change (n % 2 ^ 18 + 1) % 2 ^ 18 ≠ 32000
      omega
    rw [List.replicate_succ', List.foldl_append, List.foldl_cons, List.foldl_nil, tickStep, ih (by omega),
      tick_of_wait true (by exact hp), tickWait_high (by exact count), BitVec.ofNat_add]
    rfl

/-- The first `n` of `N` high samples as a run. -/
theorem runSteps_high {s : State} {N n : Nat} {rest : List Event} (hn : n ≤ N)
    (hq : s.inputs = List.replicate N (Event.tick true) ++ rest) :
    ∃ q, runSteps n s = .next (withInputs q ((List.replicate n true).foldl tickStep s)) ∧ (n = N → q = rest) := by
  have hticks : s.inputs = (List.replicate N true).map Event.tick ++ rest := by rw [List.map_replicate, hq]
  have hrun := runSteps_ticks_take _ n (by rwa [List.length_replicate]) rest s hticks
  rw [List.take_replicate, Nat.min_eq_left hn, List.drop_replicate] at hrun
  refine ⟨_, hrun, ?_⟩
  rintro rfl
  rw [Nat.sub_self]
  rfl

/-- The 32000th high sample raises Timeout. -/
theorem foldl_high_timeout {s : State} (hp : s.phase = .wait) (h0 : s.tcnt = 0) :
    (List.replicate (31999 + 1) true).foldl tickStep s =
      raiseFailure .timeout { clearOutputs s with tcnt := 32000 } := by
  rw [List.replicate_succ', List.foldl_append, List.foldl_cons, List.foldl_nil, tickStep,
    clearOutputs_foldl_high hp h0 31999 (by decide), tick_of_wait true (by exact hp), tickWait_timeout (by rfl)]
  rfl

/-- Settles O23: 31999 high samples are counted and the next raises Timeout. -/
theorem highLineTimesOutAtTick32000 : Obligations.HighLineTimesOutAtTick32000 := by
  unfold Obligations.HighLineTimesOutAtTick32000
  intro s rest hp h0 hq
  refine ⟨?timeout, fun n hn => ?before⟩
  case timeout =>
    obtain ⟨q, hrun, hrest⟩ := runSteps_high (Nat.le_refl 32000) hq
    rw [hrun, foldl_high_timeout hp h0, hrest rfl]
    rfl
  case before =>
    obtain ⟨q, hrun, -⟩ := runSteps_high hn.le hq
    have waited := clearOutputs_foldl_high hp h0 n hn
    have phase := congrArg State.phase waited
    have tcnt := congrArg (fun u : State => u.tcnt.toNat) waited
    refine ⟨_, hrun, phase.trans hp, tcnt.trans ?_⟩
    exact Nat.mod_eq_of_lt (by omega)

/-! ### The ticks of the capture -/

/-- Settles O24: the tick is `tickSame`. -/
theorem equalSampleLengthensRun : Obligations.EqualSampleLengthensRun := by
  unfold Obligations.EqualSampleLengthensRun
  intro s rest hp hn
  exact (step_of_tick hn).trans (congrArg _ (tick_of_capt_same (s := atAccess s rest) hp))

/-- The decoding of an ended run with its conditions as numbers (spec/40_decoder.md R129 to R131). -/
theorem closeRun_eq (s : State) : closeRun s =
    if 3 < s.idx.toNat ∧ s.idx.toNat % 2 = 0 then
      pushBit (decide (20 < s.dur.toNat)) { s with record := some { index := s.idx, level := s.ref, dur := s.dur } }
    else { s with record := some { index := s.idx, level := s.ref, dur := s.dur } } := by
  unfold closeRun
  simp only [selected_iff, bitOfRun_eq]

/-- Settles O25: the tick is `tickChange`, and what it does to the ended run is `closeRun`. -/
theorem differentSampleEndsRun : Obligations.DifferentSampleEndsRun := by
  unfold Obligations.DifferentSampleEndsRun
  intro s level rest hp hl hn
  refine ⟨_, _, rfl, rfl, ?_⟩
  rw [step_of_tick hn, tick_of_capt_change (s := atAccess s rest) hp hl, tickChange, closeRun_eq]
  rfl

/-- A pushed bit is shifted into the byte of its index, when it is one of the first 40 (spec/40_decoder.md R132,
R133). -/
theorem rawByte_pushBit_toNat (b : Bool) (s : State) (k : Fin 5) :
    (rawByte (pushBit b s).raw k).toNat =
      if s.bitcnt.toNat < 40 ∧ k.val = s.bitcnt.toNat / 8 then ((rawByte s.raw k).toNat * 2 + b.toNat) % 256
      else (rawByte s.raw k).toNat := by
  by_cases hlt : s.bitcnt.toNat < 40
  · by_cases hk : k.val = s.bitcnt.toNat / 8
    · rw [pushBit_raw_of_lt hlt k hk, rawByte_setRawByte, if_pos rfl, if_pos ⟨hlt, hk⟩, shiftIn_toNat]
    · rw [pushBit_raw_of_lt hlt ⟨s.bitcnt.toNat / 8, by omega⟩ rfl, rawByte_setRawByte,
        if_neg fun h => hk (congrArg Fin.val h), if_neg fun h => hk h.2]
  · rw [pushBit_raw_of_ge (Nat.not_lt.mp hlt), if_neg fun h => hlt h.1]

/-- Settles O26: the frame of `pushBit`, and its effect on each byte. -/
theorem pushedBitIsPackedAndCounted : Obligations.PushedBitIsPackedAndCounted := by
  unfold Obligations.PushedBitIsPackedAndCounted
  exact fun s b => ⟨pushBit_eq b s, rawByte_pushBit_toNat b s⟩

/-! ### The end of a capture -/

/-- The gate: fewer than 39 bits fail (spec/40_decoder.md R136). -/
theorem endOfCapture_of_few_bits {s : State} (h : s.bitcnt.toNat < 39) :
    endOfCapture s = raiseFailure .insufficientBits s := if_pos h

/-- Past the gate SAMPLE is done (spec/40_decoder.md R137). -/
theorem endOfCapture_of_sample {s : State} (h : 39 ≤ s.bitcnt.toNat) (ho : s.op = .sample) :
    endOfCapture s = finish s := by
  have hgate : ¬ s.bitcnt.toNat < Config.minBits := Nat.not_lt.mpr h
  rw [endOfCapture, if_neg hgate, if_pos ho]

/-- Past the gate READ is interpreted (spec/40_decoder.md R137). -/
theorem endOfCapture_of_read {s : State} (h : 39 ≤ s.bitcnt.toNat) (ho : s.op = .read) :
    endOfCapture s = interpret s := by
  have hgate : ¬ s.bitcnt.toNat < Config.minBits := Nat.not_lt.mpr h
  rw [endOfCapture, if_neg hgate, if_neg (by simp [ho])]

/-- Settles O27: one equation for each of the three ends. -/
theorem gateThenResult : Obligations.GateThenResult := by
  unfold Obligations.GateThenResult
  exact fun s => ⟨endOfCapture_of_few_bits, endOfCapture_of_sample, endOfCapture_of_read⟩

end Sys2Proof.Machine

/-! SUPPORT. How long an operation takes (spec/40_decoder.md R141): the ticks that it still needs at most and at least,
of which every tick takes one. -/

namespace Sys2Proof.Machine

/-! ### The handshake -/

/-- The ticks until WAIT (spec/40_decoder.md R122 to R124). -/
def ticksToWait (s : State) : Nat :=
  match s.phase with
  | .wake => (250000 - s.tcnt.toNat) + 20040
  | .req => (20000 - s.tcnt.toNat) + 40
  | .rel => 40 - s.tcnt.toNat
  | .wait => 0
  | .capt => 0
  | .idle => 0

/-- A counter of ticks after one more of them: it wraps only above every phase's limit. -/
theorem tcnt_succ_toNat (c : BitVec 18) : (c + 1).toNat = (c.toNat + 1) % 262144 := by simp

/-- What one tick of a driven phase does. It takes at most one from the ticks until WAIT, and exactly one where the
counter is in the phase's range; a driven phase or the start of WAIT follows. -/
structure HandshakeTick (s t : State) : Prop where
  atMostOne : ticksToWait s ≤ ticksToWait t + 1
  one : s.tcnt.toNat < tickLimit s.phase → ticksToWait t + 1 = ticksToWait s
  next : lineOe t = true ∨ (t.phase = .wait ∧ t.tcnt = 0)

/-- `tickDrive` in a phase that `k` further ticks follow, with its successor the phase that these begin. -/
theorem handshakeTick_tickDrive {s : State} {next : Phase} {k : Nat} (hs : lineOe s = true)
    (hnow : ∀ u : State, u.phase = s.phase → ticksToWait u = (tickLimit s.phase - u.tcnt.toNat) + k)
    (hnext : ∀ u : State, u.phase = next → u.tcnt = 0 → ticksToWait u = k ∧ (lineOe u = true ∨ u.phase = .wait)) :
    HandshakeTick s (tickDrive (tickLimit s.phase) next s) := by
  have hsucc := tcnt_succ_toNat s.tcnt
  have hcount := s.tcnt.isLt
  have hlimit := tickLimit_le s.phase
  have now := hnow s rfl
  rcases tickDrive_cases (tickLimit s.phase) next s with ⟨hfull, ht⟩ | ⟨hshort, ht⟩ <;> rw [ht]
  · obtain ⟨then_k, hphase⟩ := hnext { s with phase := next, tcnt := 0 } rfl rfl
    exact ⟨by omega, by omega, hphase.imp_right fun hp => ⟨hp, rfl⟩⟩
  · have counted : ticksToWait { s with tcnt := s.tcnt + 1 } = (tickLimit s.phase - (s.tcnt + 1).toNat) + k :=
      hnow _ rfl
    exact ⟨by omega, by omega, .inl hs⟩

/-- One tick of WAKE, REQ or REL. -/
theorem handshakeTick_tick {s : State} (hs : lineOe s = true) (level : Level) : HandshakeTick s (tick level s) := by
  rcases lineOe_eq_true.mp hs with hp | hp | hp
  · rw [tick_of_wake level hp, show Config.tWake = tickLimit s.phase by rw [hp]; rfl]
    refine handshakeTick_tickDrive (k := 20040) hs (fun u hu => ?_) (fun u hu h0 => ?_)
    · simp [ticksToWait, tickLimit, hu, hp]
    · simp [ticksToWait, lineOe, hu, h0]
  · rw [tick_of_req level hp, show Config.tReq = tickLimit s.phase by rw [hp]; rfl]
    refine handshakeTick_tickDrive (k := 40) hs (fun u hu => ?_) (fun u hu h0 => ?_)
    · simp [ticksToWait, tickLimit, hu, hp]
    · simp [ticksToWait, lineOe, hu, h0]
  · rw [tick_of_rel level hp, show Config.tRel = tickLimit s.phase by rw [hp]; rfl]
    refine handshakeTick_tickDrive (k := 0) hs (fun u hu => ?_) (fun u hu h0 => ?_)
    · simp [ticksToWait, tickLimit, hu, hp]
    · simp [ticksToWait, hu]

/-! ### The longest operation -/

/-- The ticks that an operation still takes at most: all of the wait, and 10000 runs of 999 samples with the sample
that ends the last of them. -/
def longestLeft (s : State) : Nat :=
  match s.phase with
  | .idle => 0
  | .wake => ticksToWait s + 10022001
  | .req => ticksToWait s + 10022001
  | .rel => ticksToWait s + 10022001
  | .wait => (32000 - s.tcnt.toNat) + 9990001
  | .capt => (9999 - s.idx.toNat) * 999 + (1000 - s.dur.toNat)

theorem longestLeft_of_lineOe {s : State} (hs : lineOe s = true) : longestLeft s = ticksToWait s + 10022001 := by
  rcases lineOe_eq_true.mp hs with hp | hp | hp <;> simp only [longestLeft, hp]

theorem longestLeft_of_wait {s : State} (hp : s.phase = .wait) :
    longestLeft s = (32000 - s.tcnt.toNat) + 9990001 := by simp only [longestLeft, hp]

theorem longestLeft_of_capt {s : State} (hp : s.phase = .capt) :
    longestLeft s = (9999 - s.idx.toNat) * 999 + (1000 - s.dur.toNat) := by simp only [longestLeft, hp]

theorem longestLeft_le (s : State) : longestLeft s ≤ 10292041 := by
  cases hp : s.phase <;> simp only [longestLeft, ticksToWait, hp] <;> omega

theorem longestLeft_pos {s : State} (h : Inv s) (hs : s.phase ≠ .idle) : 0 < longestLeft s := by
  cases hp : s.phase with
  | idle => exact absurd hp hs
  | wake | req | rel => simp [longestLeft, hp]
  | wait => simp [longestLeft, hp]
  | capt =>
    have hdur := (h.capturing hp).dur
    rw [longestLeft_of_capt hp]
    omega

/-- A driven phase is a phase that counts. -/
theorem phase_ne_of_lineOe {s : State} (hs : lineOe s = true) : s.phase ≠ .idle ∧ s.phase ≠ .capt := by
  rcases lineOe_eq_true.mp hs with hp | hp | hp <;> simp [hp]

/-- `t` is what an operation in the state `s` comes to in one tick: it has ended with DONE, or less of it is left. -/
def EndsOrShortens (s t : State) : Prop :=
  (t.phase = .idle ∧ t.done = true) ∨ (t.phase ≠ .idle ∧ longestLeft t < longestLeft s)

theorem endsOrShortens_handshake {s : State} (hs : lineOe s = true) (counting : s.tcnt.toNat < tickLimit s.phase)
    (level : Level) : EndsOrShortens s (tick level s) := by
  obtain ⟨-, one, next⟩ := handshakeTick_tick hs level
  have one_less := one counting
  right
  rw [longestLeft_of_lineOe hs]
  rcases next with hnext | ⟨hwait, h0⟩
  · obtain ⟨busy, -⟩ := phase_ne_of_lineOe hnext
    rw [longestLeft_of_lineOe hnext]
    exact ⟨busy, by omega⟩
  · have h0' : (tick level s).tcnt.toNat = 0 := congrArg BitVec.toNat h0
    rw [longestLeft_of_wait hwait]
    exact ⟨by simp [hwait], by omega⟩

theorem endsOrShortens_wait {s : State} (hp : s.phase = .wait) (counting : s.tcnt.toNat < 32000) (level : Level) :
    EndsOrShortens s (tickWait level s) := by
  have hsucc := tcnt_succ_toNat s.tcnt
  rcases tickWait_cases level s with ⟨_, ht⟩ | ⟨_, _, ht⟩ | ⟨_, _, ht⟩ <;> rw [ht]
  · refine .inr ⟨by simp, ?_⟩
    have whole : longestLeft { s with phase := .capt, ref := true, dur := 0, idx := 0 } = 9990001 :=
      (longestLeft_of_capt rfl).trans (by simp)
    rw [longestLeft_of_wait hp, whole]
    omega
  · exact .inl ⟨rfl, rfl⟩
  · refine .inr ⟨by simp [hp], ?_⟩
    rw [longestLeft_of_wait hp, longestLeft_of_wait (by exact hp)]
    dsimp only
    omega

theorem Capturing.dur_succ {s : State} (h : Capturing s) : (s.dur + 1).toNat = s.dur.toNat + 1 := by
  have hdur := h.dur
  exact BitVec.toNat_add_of_lt (by change s.dur.toNat + 1 < 2 ^ 10; omega)

theorem Capturing.idx_succ {s : State} (h : Capturing s) : (s.idx + 1).toNat = s.idx.toNat + 1 := by
  have hidx := h.idx
  exact BitVec.toNat_add_of_lt (by change s.idx.toNat + 1 < 2 ^ 14; omega)

theorem endsOrShortens_same {s : State} (h : Capturing s) : EndsOrShortens s (tickSame s) := by
  have hdur := h.dur
  have hsucc := h.dur_succ
  rcases tickSame_cases s with ⟨_, ht⟩ | ⟨_, ht⟩ <;> rw [ht]
  · exact .inl ⟨endOfCapture_phase _, endOfCapture_done _⟩
  · refine .inr ⟨by simp [h.phase], ?_⟩
    rw [longestLeft_of_capt h.phase, longestLeft_of_capt (by exact h.phase)]
    dsimp only
    omega

theorem endsOrShortens_change {s : State} (h : Capturing s) (level : Level) :
    EndsOrShortens s (tickChange level s) := by
  have hdur := h.dur
  have hidx := h.idx
  have hsucc := h.idx_succ
  rcases tickChange_cases level s with ⟨_, ht⟩ | ⟨hne, ht⟩ <;> rw [ht]
  · exact .inl ⟨endOfCapture_phase _, endOfCapture_done _⟩
  · change (s.idx + 1).toNat ≠ 10000 at hne
    refine .inr ⟨by simp [h.phase], ?_⟩
    rw [longestLeft_of_capt h.phase, longestLeft_of_capt (by simpa using h.phase)]
    simp only [hsucc, show (1 : BitVec 10).toNat = 1 from rfl]
    omega

/-- Every tick of a running operation ends it or takes from what is left of it. -/
theorem endsOrShortens_tick {s : State} (h : Inv s) (hs : s.phase ≠ .idle) (level : Level) :
    EndsOrShortens s (tick level s) := by
  have handshake (hoe : lineOe s = true) : EndsOrShortens s (tick level s) :=
    endsOrShortens_handshake hoe (h.tcnt_lt_tickLimit hs (phase_ne_of_lineOe hoe).right) level
  cases hp : s.phase with
  | idle => exact absurd hp hs
  | wake => exact handshake (lineOe_eq_true.mpr (.inl hp))
  | req => exact handshake (lineOe_eq_true.mpr (.inr (.inl hp)))
  | rel => exact handshake (lineOe_eq_true.mpr (.inr (.inr hp)))
  | wait =>
    rw [tick_of_wait level hp]
    exact endsOrShortens_wait hp (h.waitCount hp) level
  | capt =>
    by_cases hl : level = s.ref
    · obtain rfl := hl
      rw [tick_of_capt_same hp]
      exact endsOrShortens_same (h.capturing hp)
    · rw [tick_of_capt_change hp hl]
      exact endsOrShortens_change (h.capturing hp) level

/-- An operation ends within the ticks that are left of it at most, and uses no later event. -/
theorem runSteps_ends {samples : List Level} {rest : List Event} : ∀ {s : State}, Inv s → s.phase ≠ .idle →
    longestLeft s ≤ samples.length → s.inputs = samples.map Event.tick ++ rest →
      ∃ n t, n ≤ samples.length ∧ runSteps n s = .next t ∧ t.phase = .idle ∧ t.done = true ∧
        t.inputs = (samples.drop n).map Event.tick ++ rest := by
  induction samples with
  | nil =>
    intro s h hs hleft _
    exact absurd (longestLeft_pos h hs) (Nat.not_lt.mpr hleft)
  | cons level samples ih =>
    intro s h hs hleft hq
    have hstep := step_of_tick (rest := samples.map Event.tick ++ rest) hq
    have access : Inv (atAccess s (samples.map Event.tick ++ rest)) := { h with }
    rcases endsOrShortens_tick access hs level with ⟨hidle, hdone⟩ | ⟨hbusy, hless⟩
    · exact ⟨1, _, by simp, runSteps_of_step hstep 0, hidle, hdone, by simp⟩
    · have hleft' := Nat.le_of_lt_succ (hless.trans_le hleft)
      obtain ⟨n, t, hn, hrun, hend⟩ := ih (access.tick level) hbusy hleft' (by simp)
      exact ⟨n + 1, t, Nat.succ_le_succ hn, (runSteps_of_step hstep n).trans hrun, hend⟩

/-- Settles O42: no operation has more than 10,292,041 ticks left, and every tick takes one. -/
theorem everyOperationEnds : Obligations.EveryOperationEnds := by
  unfold Obligations.EveryOperationEnds
  intro s samples rest h hs hlen hq
  obtain ⟨n, t, hn, hend⟩ := runSteps_ends h hs (hlen ▸ longestLeft_le s) hq
  exact ⟨n, t, hlen ▸ hn, hend⟩

/-! ### The shortest operation -/

/-- The ticks that an operation still takes at least: a low sample at once and a stall in run 0 are the shortest way,
but for the last ticks of WAIT and the last runs of a capture. -/
def shortestLeft (s : State) : Nat :=
  match s.phase with
  | .idle => 0
  | .wake => ticksToWait s + 1001
  | .req => ticksToWait s + 1001
  | .rel => ticksToWait s + 1001
  | .wait => min 1001 (32000 - s.tcnt.toNat)
  | .capt => min (1000 - s.dur.toNat) (10000 - s.idx.toNat)

theorem shortestLeft_of_idle {s : State} (hp : s.phase = .idle) : shortestLeft s = 0 := by
  simp only [shortestLeft, hp]

theorem shortestLeft_of_lineOe {s : State} (hs : lineOe s = true) : shortestLeft s = ticksToWait s + 1001 := by
  rcases lineOe_eq_true.mp hs with hp | hp | hp <;> simp only [shortestLeft, hp]

theorem shortestLeft_of_wait {s : State} (hp : s.phase = .wait) :
    shortestLeft s = min 1001 (32000 - s.tcnt.toNat) := by simp only [shortestLeft, hp]

theorem shortestLeft_of_capt {s : State} (hp : s.phase = .capt) :
    shortestLeft s = min (1000 - s.dur.toNat) (10000 - s.idx.toNat) := by simp only [shortestLeft, hp]

theorem shortestLeft_handshake {s : State} (hs : lineOe s = true) (level : Level) :
    shortestLeft s ≤ shortestLeft (tick level s) + 1 := by
  obtain ⟨at_most_one, -, next⟩ := handshakeTick_tick hs level
  rw [shortestLeft_of_lineOe hs]
  rcases next with hnext | ⟨hwait, h0⟩
  · rw [shortestLeft_of_lineOe hnext]
    omega
  · have waited : ticksToWait (tick level s) = 0 := by simp only [ticksToWait, hwait]
    have left : shortestLeft (tick level s) = 1001 := by rw [shortestLeft_of_wait hwait, h0]; rfl
    omega

theorem shortestLeft_tickWait {s : State} (hp : s.phase = .wait) (level : Level) :
    shortestLeft s ≤ shortestLeft (tickWait level s) + 1 := by
  have hsucc := tcnt_succ_toNat s.tcnt
  rw [shortestLeft_of_wait hp]
  rcases tickWait_cases level s with ⟨_, ht⟩ | ⟨_, hlast, ht⟩ | ⟨_, _, ht⟩ <;> rw [ht]
  · rw [shortestLeft_of_capt rfl]
    simp
  · change (s.tcnt + 1).toNat = 32000 at hlast
    omega
  · rw [shortestLeft_of_wait (by exact hp)]
    dsimp only
    omega

theorem shortestLeft_tickSame {s : State} (hp : s.phase = .capt) : shortestLeft s ≤ shortestLeft (tickSame s) + 1 := by
  have hsucc : (s.dur + 1).toNat = (s.dur.toNat + 1) % 1024 := by simp
  rw [shortestLeft_of_capt hp]
  rcases tickSame_cases s with ⟨hlast, ht⟩ | ⟨_, ht⟩ <;> rw [ht]
  · change (s.dur + 1).toNat = 1000 at hlast
    omega
  · rw [shortestLeft_of_capt (by exact hp)]
    dsimp only
    omega

theorem shortestLeft_tickChange {s : State} (hp : s.phase = .capt) (level : Level) :
    shortestLeft s ≤ shortestLeft (tickChange level s) + 1 := by
  have hsucc : (s.idx + 1).toNat = (s.idx.toNat + 1) % 16384 := by simp
  rw [shortestLeft_of_capt hp]
  rcases tickChange_cases level s with ⟨hlast, ht⟩ | ⟨_, ht⟩ <;> rw [ht]
  · change (s.idx + 1).toNat = 10000 at hlast
    omega
  · rw [shortestLeft_of_capt (by simpa using hp)]
    simp only [hsucc, show (1 : BitVec 10).toNat = 1 from rfl]
    omega

/-- No tick takes more than one from what is left at least, in any state. -/
theorem shortestLeft_tick (s : State) (level : Level) : shortestLeft s ≤ shortestLeft (tick level s) + 1 := by
  cases hp : s.phase with
  | idle => rw [shortestLeft_of_idle hp]; exact Nat.zero_le _
  | wake => exact shortestLeft_handshake (lineOe_eq_true.mpr (.inl hp)) level
  | req => exact shortestLeft_handshake (lineOe_eq_true.mpr (.inr (.inl hp))) level
  | rel => exact shortestLeft_handshake (lineOe_eq_true.mpr (.inr (.inr hp))) level
  | wait =>
    rw [tick_of_wait level hp]
    exact shortestLeft_tickWait hp level
  | capt =>
    by_cases hl : level = s.ref
    · obtain rfl := hl
      rw [tick_of_capt_same hp]
      exact shortestLeft_tickSame hp
    · rw [tick_of_capt_change hp hl]
      exact shortestLeft_tickChange hp level

/-- An operation runs on as long as it has ticks left at least. -/
theorem runSteps_goes_on {rest : List Event} {n : Nat} : ∀ {samples : List Level} {s : State},
    s.inputs = samples.map Event.tick ++ rest → n ≤ samples.length → n < shortestLeft s →
      ∃ t, runSteps n s = .next t ∧ t.phase ≠ .idle := by
  induction n with
  | zero =>
    intro samples s _ _ hleft
    refine ⟨s, rfl, fun hidle => ?_⟩
    rw [shortestLeft_of_idle hidle] at hleft
    exact Nat.lt_irrefl 0 hleft
  | succ n ih =>
    rintro (_ | ⟨level, samples⟩) s hq hn hleft
    · exact absurd hn (Nat.not_succ_le_zero n)
    · have hstep := step_of_tick (rest := samples.map Event.tick ++ rest) hq
      have hleft' := hleft.trans_le (shortestLeft_tick (atAccess s (samples.map Event.tick ++ rest)) level)
      rw [runSteps_of_step hstep]
      exact ih (by simp) (Nat.le_of_succ_le_succ hn) (Nat.lt_of_succ_lt_succ hleft')

/-- Settles O43: at the start of WAKE 271041 ticks are left at least. -/
theorem noOperationEndsBeforeTick271041 : Obligations.NoOperationEndsBeforeTick271041 := by
  unfold Obligations.NoOperationEndsBeforeTick271041
  intro s samples rest n hp h0 hq hlen hn
  have left : shortestLeft s = 271041 := by simp [shortestLeft, ticksToWait, hp, h0]
  exact runSteps_goes_on hq hlen (left ▸ hn)

end Sys2Proof.Machine

/-! SUPPORT. The capture as a function of its samples (spec/40_decoder.md R138, R139): one sample at a time while it
goes on, its end, and the nominal frame. -/

namespace Sys2Proof.Machine

/-! ### The runs of a sequence of samples -/

/-- One bit for each even index above 3 (spec/40_decoder.md R130). -/
theorem length_dataBits (ns : List Nat) : (dataBits 0 ns).length = (ns.length - 3) / 2 := by
  induction ns using List.reverseRecOn with
  | nil => rfl
  | append_singleton ns n ih =>
    rw [dataBits_append, List.length_append, ih, List.length_append, List.length_singleton, Nat.zero_add]
    by_cases hsel : 4 ≤ ns.length ∧ ns.length % 2 = 0
    · rw [if_pos hsel, List.length_singleton]
      omega
    · rw [if_neg hsel, List.length_nil]
      omega

/-- A high level is that of an even index: run 0 is high and the levels alternate (spec/40_decoder.md R129). -/
theorem openLevel_eq_parity (c : List Level) : openLevel true c = ((closedRuns true 0 c).length % 2 == 0) := by
  induction c using List.reverseRecOn with
  | nil => rfl
  | append_singleton c x ih =>
    rw [openLevel_append, closedRuns_append]
    by_cases hx : x = openLevel true c
    · rw [if_pos hx, ← ih, hx]
    · rw [if_neg hx, List.length_append, List.length_singleton, Bool.eq_not.mpr hx, ih]
      rcases Nat.mod_two_eq_zero_or_one (closedRuns true 0 c).length with h | h <;> simp [Nat.add_mod, h]

/-- The samples before one of a capture that goes on do not end it either. -/
theorem CaptureGoesOn.of_append {c : List Level} {x : Level} (h : CaptureGoesOn (c ++ [x])) : CaptureGoesOn c := by
  obtain ⟨hruns, hopen, hfew⟩ := h
  rw [closedRuns_append] at hruns hfew
  rw [openRun_append] at hopen
  by_cases hx : x = openLevel true c
  · rw [if_pos hx] at hruns hopen hfew
    exact ⟨hruns, by omega, hfew⟩
  · rw [if_neg hx] at hruns hfew
    rw [List.length_append, List.length_singleton] at hfew
    exact ⟨fun n hn => hruns n (List.mem_append_left _ hn), hruns _ (by simp), by omega⟩

/-- The sample `x` after `c` ends a capture: it makes a run of 1000 samples or ends run 9999 (spec/40_decoder.md R134,
R135). -/
def EndsCapture (c : List Level) (x : Level) : Prop :=
  openRun true 0 (c ++ [x]) = 1000 ∨ (closedRuns true 0 (c ++ [x])).length = 10000

theorem CaptureGoesOn.not_endsCapture {c : List Level} {x : Level} (h : CaptureGoesOn (c ++ [x])) :
    ¬ EndsCapture c x := by
  have hopen := h.openShort
  have hfew := h.fewRuns
  rintro (hstall | hbound) <;> omega

/-! ### One sample -/

/-- A tick of CAPT without the end of the capture: the run goes on, or it is closed and the next begins. -/
def captureSample (x : Level) (u : State) : State :=
  if x = u.ref then { u with dur := u.dur + 1 } else { closeRun u with ref := x, dur := 1, idx := u.idx + 1 }

theorem captureSample_same (u : State) : captureSample u.ref u = { u with dur := u.dur + 1 } := if_pos rfl

theorem captureSample_change {x : Level} {u : State} (h : x ≠ u.ref) :
    captureSample x u = { closeRun u with ref := x, dur := 1, idx := u.idx + 1 } := if_neg h

@[simp] theorem captureSample_inputs (x : Level) (u : State) : (captureSample x u).inputs = u.inputs := by
  unfold captureSample
  split <;> simp

/-- In the state `u` the capture that started in `s` has taken the samples `c`. -/
structure Captured (s : State) (c : List Level) (u : State) : Prop where
  phase : u.phase = .capt
  ref : u.ref = openLevel true c
  dur : u.dur.toNat = openRun true 0 c
  idx : u.idx.toNat = (closedRuns true 0 c).length
  bitcnt : u.bitcnt.toNat = (dataBits 0 (closedRuns true 0 c)).length
  raw : ∀ k : Fin 5, (rawByte u.raw k).toNat = packedByte (dataBits 0 (closedRuns true 0 c)) k
  variant : u.variant = s.variant
  op : u.op = s.op
  err : u.err = s.err
  rdv : u.rdv = s.rdv

theorem CaptureStart.captured {s : State} (h : CaptureStart s) : Captured s [] s where
  phase := h.phase
  ref := h.ref
  dur := congrArg BitVec.toNat h.dur
  idx := congrArg BitVec.toNat h.idx
  bitcnt := congrArg BitVec.toNat h.bitcnt
  raw k := by rw [h.raw, rawByte_rawZero]; simp [packedByte, closedRuns, dataBits]
  variant := rfl
  op := rfl
  err := rfl
  rdv := rfl

namespace Captured

variable {s u : State} {c : List Level}

/-- `Captured` says nothing of the ports and the queue. -/
theorem atAccess (h : Captured s c u) (rest : List Event) : Captured s c (atAccess u rest) := { h with }

theorem dur_succ (h : Captured s c u) (hc : CaptureGoesOn c) : (u.dur + 1).toNat = openRun true 0 c + 1 := by
  have hopen := hc.openShort
  rw [← h.dur] at hopen ⊢
  exact BitVec.toNat_add_of_lt (by change u.dur.toNat + 1 < 2 ^ 10; omega)

theorem idx_succ (h : Captured s c u) (hc : CaptureGoesOn c) :
    (u.idx + 1).toNat = (closedRuns true 0 c).length + 1 := by
  have hfew := hc.fewRuns
  rw [← h.idx] at hfew ⊢
  exact BitVec.toNat_add_of_lt (by change u.idx.toNat + 1 < 2 ^ 14; omega)

theorem bitcnt_succ (h : Captured s c u) (hc : CaptureGoesOn c) :
    (u.bitcnt + 1).toNat = (dataBits 0 (closedRuns true 0 c)).length + 1 := by
  have hfew := hc.fewRuns
  have hbits := h.bitcnt
  rw [length_dataBits] at hbits ⊢
  rw [← hbits]
  exact BitVec.toNat_add_of_lt (by change u.bitcnt.toNat + 1 < 2 ^ 13; omega)

/-- A pushed bit is the next of the packed bits. -/
theorem rawByte_pushBit (h : Captured s c u) (b : Bool) (k : Fin 5) :
    (rawByte (pushBit b u).raw k).toNat = packedByte (dataBits 0 (closedRuns true 0 c) ++ [b]) k := by
  rw [rawByte_pushBit_toNat, packedByte_append, h.bitcnt, h.raw]
  have hk := k.isLt
  exact if_congr ⟨fun ⟨_, heq⟩ => heq.symm, fun heq => ⟨by omega, heq.symm⟩⟩ rfl rfl

/-- The bits of the runs when the run in progress is closed. -/
theorem closeRun_bits (h : Captured s c u) (hc : CaptureGoesOn c) :
    (closeRun u).bitcnt.toNat = (dataBits 0 (closedRuns true 0 c ++ [openRun true 0 c])).length ∧
      ∀ k : Fin 5, (rawByte (closeRun u).raw k).toNat =
        packedByte (dataBits 0 (closedRuns true 0 c ++ [openRun true 0 c])) k := by
  have recorded : Captured s c { u with record := some { index := u.idx, level := u.ref, dur := u.dur } } := { h with }
  rw [closeRun_eq, dataBits_append, h.idx, h.dur, Nat.zero_add]
  by_cases hsel : 3 < (closedRuns true 0 c).length ∧ (closedRuns true 0 c).length % 2 = 0
  · rw [if_pos hsel, if_pos (by exact hsel)]
    refine ⟨?_, recorded.rawByte_pushBit _⟩
    rw [pushBit_bitcnt, List.length_append]
    exact recorded.bitcnt_succ hc
  · rw [if_neg hsel, if_neg (by exact hsel), List.append_nil]
    exact ⟨h.bitcnt, h.raw⟩

/-- One more sample. -/
theorem captureSample (h : Captured s c u) (hc : CaptureGoesOn c) (x : Level) :
    Captured s (c ++ [x]) (captureSample x u) := by
  have hlevel := openLevel_append x c true
  have hruns := closedRuns_append x c true 0
  have hopen := openRun_append x c true 0
  by_cases hx : x = u.ref
  · obtain rfl := hx
    rw [if_pos h.ref] at hruns hopen
    rw [captureSample_same]
    exact { h with
      ref := hlevel.symm
      dur := (h.dur_succ hc).trans hopen.symm
      idx := hruns ▸ h.idx
      bitcnt := hruns ▸ h.bitcnt
      raw := hruns ▸ h.raw }
  · rw [captureSample_change hx]
    rw [h.ref] at hx
    rw [if_neg hx] at hruns hopen
    obtain ⟨hbitcnt, hraw⟩ := h.closeRun_bits hc
    exact {
      phase := by simp [h.phase]
      ref := hlevel.symm
      dur := hopen.symm
      idx := by rw [hruns, List.length_append]; exact h.idx_succ hc
      bitcnt := hruns ▸ hbitcnt
      raw := hruns ▸ hraw
      variant := by simp [h.variant]
      op := by simp [h.op]
      err := by simp [h.err]
      rdv := by simp [h.rdv] }

/-- A tick of CAPT is one sample, with the end of the capture where that sample ends it. -/
theorem tick (h : Captured s c u) (hc : CaptureGoesOn c) (x : Level) :
    (EndsCapture c x ∧ tick x u = endOfCapture (Machine.captureSample x u)) ∨
      (¬ EndsCapture c x ∧ tick x u = Machine.captureSample x u) := by
  have hfew := hc.fewRuns
  have hruns := closedRuns_append x c true 0
  have hopen := openRun_append x c true 0
  unfold EndsCapture
  by_cases hx : x = u.ref
  · obtain rfl := hx
    rw [if_pos h.ref] at hruns hopen
    rw [hruns, hopen, ← h.dur_succ hc, tick_of_capt_same h.phase, captureSample_same]
    rcases tickSame_cases u with ⟨hstall, ht⟩ | ⟨hne, ht⟩
    · exact .inl ⟨.inl hstall, ht⟩
    · exact .inr ⟨by rintro (hstall | hbound); exacts [hne hstall, by omega], ht⟩
  · rw [if_neg fun heq => hx (heq.trans h.ref.symm)] at hruns hopen
    rw [hruns, hopen, List.length_append, List.length_singleton, ← h.idx_succ hc, tick_of_capt_change h.phase hx,
      captureSample_change hx]
    rcases tickChange_cases x u with ⟨hbound, ht⟩ | ⟨hne, ht⟩
    · exact .inl ⟨.inr hbound, ht⟩
    · exact .inr ⟨by rintro (hstall | hbound); exacts [by omega, hne hbound], ht⟩

end Captured

/-! ### The records -/

/-- A record as numbers. -/
def recordView (r : Record) : Nat × Level × Nat := (r.index.toNat, r.level, r.dur.toNat)

/-- The records of ended runs of the given lengths: run 0 is high and the levels alternate. -/
def runRecords (ns : List Nat) : List (Nat × Level × Nat) := ns.zipIdx.map fun p => (p.2, p.2 % 2 == 0, p.1)

theorem runRecords_append (ns : List Nat) (n : Nat) :
    runRecords (ns ++ [n]) = runRecords ns ++ [(ns.length, ns.length % 2 == 0, n)] := by
  simp [runRecords, List.zipIdx_append]

theorem recordsAlong_of_step {s t : State} (h : step s = .next t) (n : Nat) :
    recordsAlong (n + 1) s = t.record.toList ++ recordsAlong n t := by
  rw [recordsAlong, h]

/-- The records of one step more. -/
theorem recordsAlong_succ {n : Nat} {u v : State} : ∀ {s : State}, runSteps n s = .next u → step u = .next v →
    recordsAlong (n + 1) s = recordsAlong n s ++ v.record.toList := by
  induction n with
  | zero =>
    intro s hu hv
    cases hu
    rw [recordsAlong_of_step hv]
    exact List.append_nil _
  | succ n ih =>
    intro s hu hv
    cases hst : step s with
    | next t =>
      rw [runSteps_of_step hst] at hu
      have tail := ih hu hv
      calc recordsAlong (n + 1 + 1) s = t.record.toList ++ recordsAlong (n + 1) t := recordsAlong_of_step hst _
        _ = t.record.toList ++ (recordsAlong n t ++ v.record.toList) := by rw [tail]
        _ = recordsAlong (n + 1) s ++ v.record.toList := by rw [recordsAlong_of_step hst, List.append_assoc]
    | fault r => simp [runSteps, hst] at hu
    | refused r => simp [runSteps, hst] at hu

/-- A sample records the run that it ends, and nothing where it ends none. -/
theorem runRecords_captureSample {s u : State} {c : List Level} (h : Captured s c u) (hr : u.record = none)
    (x : Level) :
    runRecords (closedRuns true 0 (c ++ [x])) =
      runRecords (closedRuns true 0 c) ++ (captureSample x u).record.toList.map recordView := by
  have hruns := closedRuns_append x c true 0
  by_cases hx : x = u.ref
  · obtain rfl := hx
    rw [if_pos h.ref] at hruns
    rw [hruns, captureSample_same]
    simp [hr]
  · rw [if_neg fun heq => hx (heq.trans h.ref.symm)] at hruns
    rw [hruns, captureSample_change hx, runRecords_append, ← openLevel_eq_parity, ← h.ref, ← h.idx, ← h.dur]
    simp [recordView]

/-! ### The capture while it goes on -/

/-- The capture after the samples `c`, which do not end it. -/
theorem runSteps_capture {s : State} (hs : CaptureStart s) {c : List Level} : ∀ {rest : List Event}, CaptureGoesOn c →
    s.inputs = c.map Event.tick ++ rest →
      ∃ t, runSteps c.length s = .next t ∧ t.inputs = rest ∧ Captured s c t ∧
        (recordsAlong c.length s).map recordView = runRecords (closedRuns true 0 c) := by
  induction c using List.reverseRecOn with
  | nil => intro rest _ hq; exact ⟨s, rfl, hq, hs.captured, rfl⟩
  | append_singleton c x ih =>
    intro rest hc hq
    obtain ⟨t, hrun, hqt, ht, hrec⟩ := ih (rest := .tick x :: rest) hc.of_append (by simpa using hq)
    have access := ht.atAccess rest
    have hstep := step_of_tick hqt
    rcases access.tick hc.of_append x with ⟨hend, _⟩ | ⟨_, htick⟩
    · exact absurd hend hc.not_endsCapture
    · rw [htick] at hstep
      refine ⟨_, ?_, by simp, access.captureSample hc.of_append x, ?_⟩
      · rw [List.length_append, runSteps_add hrun]
        exact runSteps_of_step hstep 0
      · rw [List.length_append, List.length_singleton, recordsAlong_succ hrun hstep, List.map_append, hrec,
          runRecords_captureSample access rfl]

/-- Settles O47: `Captured` and the records after the samples. -/
theorem captureIsFunctionOfSamples : Obligations.CaptureIsFunctionOfSamples := by
  unfold Obligations.CaptureIsFunctionOfSamples
  intro s c rest hs hc hq
  obtain ⟨t, hrun, hqt, ht, hrec⟩ := runSteps_capture hs hc hq
  exact ⟨t, hrun, ht.phase, hqt, ht.idx, ht.dur, ht.bitcnt, ht.raw, hrec⟩

/-! ### The end of the capture -/

/-- The sample that ends a capture adds no bit: it ends no run, or run 9999, whose index is odd. -/
theorem dataBits_of_endsCapture {c : List Level} {x : Level} (h : EndsCapture c x) :
    dataBits 0 (closedRuns true 0 (c ++ [x])) = dataBits 0 (closedRuns true 0 c) := by
  unfold EndsCapture at h
  rw [closedRuns_append, openRun_append] at h
  rw [closedRuns_append]
  by_cases hx : x = openLevel true c
  · rw [if_pos hx]
  · rw [if_neg hx, if_neg hx, List.length_append, List.length_singleton] at h
    rw [if_neg hx, dataBits_append, if_neg (by omega), List.append_nil]

/-- `t` is the result of a capture that started in `s` and collected `bits`: the gate, and past it the end of SAMPLE or
the Reading of READ (spec/40_decoder.md R136, R137). -/
structure CaptureResult (s : State) (bits : List Bool) (t : State) : Prop where
  phase : t.phase = .idle
  done : t.done = true
  bitcnt : t.bitcnt.toNat = bits.length
  raw : ∀ k : Fin 5, (rawByte t.raw k).toNat = packedByte bits k
  fewBits : t.bitcnt.toNat < 39 → t.err = some .insufficientBits
  sample : 39 ≤ t.bitcnt.toNat → s.op = .sample → t.err = s.err ∧ t.rdv = s.rdv
  read : 39 ≤ t.bitcnt.toNat → s.op = .read → t.csum = checksum t.raw ∧
    (t.csum ≠ t.raw.b4 → t.err = some .checksumMismatch ∧ t.rdv = s.rdv) ∧
    (t.csum = t.raw.b4 → t.err = s.err ∧ t.rdv = true ∧ t.hum = humidity s.variant t.raw ∧
      t.temp = temperature s.variant t.raw)

theorem Captured.result {s u : State} {c : List Level} (h : Captured s c u) :
    CaptureResult s (dataBits 0 (closedRuns true 0 c)) (endOfCapture u) where
  phase := endOfCapture_phase u
  done := endOfCapture_done u
  bitcnt := by rw [endOfCapture_bitcnt, h.bitcnt]
  raw := by rw [endOfCapture_raw]; exact h.raw
  fewBits hfew := by
    rw [endOfCapture_bitcnt] at hfew
    rw [endOfCapture_of_few_bits hfew, raiseFailure_err]
  sample hgate ho := by
    rw [endOfCapture_bitcnt] at hgate
    rw [endOfCapture_of_sample hgate (h.op.trans ho)]
    exact ⟨h.err, h.rdv⟩
  read hgate ho := by
    rw [endOfCapture_bitcnt] at hgate
    rw [endOfCapture_of_read hgate (h.op.trans ho), interpret_csum, interpret_raw]
    refine ⟨rfl, fun hmismatch => ?_, fun hmatch => ?_⟩
    · rw [interpret_of_mismatch hmismatch]
      exact ⟨rfl, h.rdv⟩
    · rw [interpret_of_match hmatch, ← h.variant]
      exact ⟨h.err, rfl, rfl, rfl⟩

/-- The capture after the sample that ends it. -/
theorem runSteps_endsCapture {s : State} (hs : CaptureStart s) {c : List Level} {last : Level} {rest : List Event}
    (hc : CaptureGoesOn c) (hend : EndsCapture c last) (hq : s.inputs = (c ++ [last]).map Event.tick ++ rest) :
    ∃ t, runSteps (c.length + 1) s = .next t ∧ t.inputs = rest ∧
      CaptureResult s (dataBits 0 (closedRuns true 0 c)) t ∧
      (recordsAlong (c.length + 1) s).map recordView = runRecords (closedRuns true 0 (c ++ [last])) := by
  obtain ⟨t, hrun, hqt, ht, hrec⟩ := runSteps_capture hs (rest := .tick last :: rest) hc (by simpa using hq)
  have access := ht.atAccess rest
  have hstep := step_of_tick hqt
  rcases access.tick hc last with ⟨_, htick⟩ | ⟨hgoes, _⟩
  · rw [htick] at hstep
    refine ⟨endOfCapture (captureSample last (atAccess t rest)), ?_, by simp, ?_, ?_⟩
    · rw [runSteps_add hrun]
      exact runSteps_of_step hstep 0
    · rw [← dataBits_of_endsCapture hend]
      exact (access.captureSample hc last).result
    · rw [recordsAlong_succ hrun hstep, List.map_append, hrec, endOfCapture_record, runRecords_captureSample access rfl]
  · exact absurd hend hgoes

/-- Settles O48: `CaptureResult` read field by field. -/
theorem captureEndsAtStallOrBound : Obligations.CaptureEndsAtStallOrBound := by
  unfold Obligations.CaptureEndsAtStallOrBound
  intro s c last rest hs hc hq hend
  obtain ⟨t, hrun, hqt, ht, -⟩ := runSteps_endsCapture hs hc hend hq
  exact ⟨t, hrun, ht.phase, ht.done, hqt, ht.bitcnt, ht.raw, ht.fewBits, ht.sample, ht.read⟩

/-! ### The nominal frame -/

/-- The samples of a wave (spec/30_encoding.md R103). -/
def waveSamples (runs : List (Level × Nat)) : List Level := runs.flatMap fun r => List.replicate r.2 r.1

theorem lineEvents_wave (runs : List (Level × Nat)) :
    lineEvents (.wave runs) = (waveSamples runs).map Event.tick := by
  simp [lineEvents, waveSamples, List.map_flatMap]

/-- No run of the wave is empty, and each has the other level than the one before it, the first than `ref`. -/
def Alternates : Level → List (Level × Nat) → Prop
  | _, [] => True
  | ref, (level, n) :: runs => level = !ref ∧ 1 ≤ n ∧ Alternates level runs

/-- Samples of the level of the run in progress lengthen it. -/
theorem runs_replicate_append (level : Level) (c : List Level) (m : Nat) : ∀ n,
    closedRuns level n (List.replicate m level ++ c) = closedRuns level (n + m) c ∧
      openRun level n (List.replicate m level ++ c) = openRun level (n + m) c := by
  induction m with
  | zero => intro n; exact ⟨rfl, rfl⟩
  | succ m ih =>
    intro n
    obtain ⟨hclosed, hopen⟩ := ih (n + 1)
    rw [List.replicate_succ, List.cons_append, closedRuns, openRun, if_pos rfl, if_pos rfl, hclosed, hopen,
      Nat.add_right_comm, Nat.add_assoc]
    exact ⟨rfl, rfl⟩

/-- A run of the other level ends the run in progress. -/
theorem runs_other_level (level : Level) (c : List Level) {m : Nat} (hm : 1 ≤ m) (n : Nat) :
    closedRuns (!level) n (List.replicate m level ++ c) = n :: closedRuns level m c ∧
      openRun (!level) n (List.replicate m level ++ c) = openRun level m c := by
  obtain ⟨m, rfl⟩ := Nat.exists_eq_add_of_le' hm
  obtain ⟨hclosed, hopen⟩ := runs_replicate_append level c m 1
  have other : level ≠ !level := by simp
  rw [List.replicate_succ, List.cons_append, closedRuns, openRun, if_neg other, if_neg other, hclosed, hopen,
    Nat.add_comm 1 m]
  exact ⟨rfl, rfl⟩

/-- The runs of a wave are the ones written in it: the last is in progress and all before it have ended. -/
theorem runs_waveSamples : ∀ (runs : List (Level × Nat)) (ref : Level) (n : Nat), Alternates ref runs →
    closedRuns ref n (waveSamples runs) = (n :: runs.map Prod.snd).dropLast ∧
      openRun ref n (waveSamples runs) = (runs.map Prod.snd).getLastD n
  | [], _, _, _ => ⟨rfl, rfl⟩
  | (level, m) :: runs, ref, n, halt => by
    obtain ⟨hlevel, hm, hrest⟩ := halt
    obtain rfl : ref = !level := by rw [hlevel, Bool.not_not]
    obtain ⟨hclosed, hopen⟩ := runs_waveSamples runs level m hrest
    obtain ⟨hclosed', hopen'⟩ := runs_other_level level (waveSamples runs) hm n
    rw [show waveSamples ((level, m) :: runs) = List.replicate m level ++ waveSamples runs from rfl, hclosed', hopen',
      hclosed, hopen, List.map_cons, List.getLastD_cons]
    exact ⟨rfl, rfl⟩

/-- The lengths of the gaps and pulses of data bits, in order. -/
def bitLengths (bits : List (Nat × Nat)) : List Nat := bits.flatMap fun b => [b.1, b.2]

/-- The runs of the nominal frame, `resting` samples of its rest (spec/40_decoder.md R139). -/
def nominalRuns (low high tail : Nat) (bits : List (Nat × Nat)) (resting : Nat) : List (Level × Nat) :=
  [(false, low), (true, high)] ++ bits.flatMap (fun b => [(false, b.1), (true, b.2)]) ++
    [(false, tail), (true, resting)]

theorem nominalRuns_lengths (low high tail : Nat) (bits : List (Nat × Nat)) (resting : Nat) :
    (nominalRuns low high tail bits resting).map Prod.snd =
      ([low, high] ++ bitLengths bits ++ [tail]) ++ [resting] := by
  simp [nominalRuns, bitLengths, List.map_flatMap]

/-- The samples of the rest come last. -/
theorem waveSamples_nominalRuns_succ (low high tail : Nat) (bits : List (Nat × Nat)) (resting : Nat) :
    waveSamples (nominalRuns low high tail bits (resting + 1)) =
      waveSamples (nominalRuns low high tail bits resting) ++ [true] := by
  simp [waveSamples, nominalRuns, List.replicate_succ']

/-- Gaps are low and pulses are high, so runs that alternate may follow them. -/
theorem alternates_bits {bits : List (Nat × Nat)} {runs : List (Level × Nat)} (hruns : Alternates true runs)
    (hbits : ∀ n ∈ bitLengths bits, 1 ≤ n) :
    Alternates true (bits.flatMap (fun b => [(false, b.1), (true, b.2)]) ++ runs) := by
  induction bits with
  | nil => exact hruns
  | cons b bits ih =>
    have rest_nonempty : ∀ n ∈ bitLengths bits, 1 ≤ n :=
      fun n hn => hbits n (List.mem_cons_of_mem _ (List.mem_cons_of_mem _ hn))
    exact ⟨rfl, hbits _ (by simp [bitLengths]), rfl, hbits _ (by simp [bitLengths]), ih rest_nonempty⟩

/-- The samples of a nominal frame as runs. -/
theorem runs_nominal {low high tail resting : Nat} {bits : List (Nat × Nat)}
    (hn : ∀ n ∈ low :: high :: tail :: bitLengths bits, 1 ≤ n) (hr : 1 ≤ resting) :
    closedRuns true 0 (waveSamples (nominalRuns low high tail bits resting)) =
        [0, low, high] ++ bitLengths bits ++ [tail] ∧
      openRun true 0 (waveSamples (nominalRuns low high tail bits resting)) = resting := by
  have htail : Alternates true [(false, tail), (true, resting)] := ⟨rfl, hn _ (by simp), rfl, hr, trivial⟩
  have hbits := alternates_bits (bits := bits) htail fun n hmem => hn n (by simp [hmem])
  have halt : Alternates true (nominalRuns low high tail bits resting) := by
    rw [nominalRuns, List.append_assoc]
    exact ⟨rfl, hn _ (by simp), rfl, hn _ (by simp), hbits⟩
  obtain ⟨hclosed, hopen⟩ := runs_waveSamples _ _ 0 halt
  rw [hclosed, hopen, nominalRuns_lengths, ← List.cons_append, List.dropLast_concat, List.getLastD_concat]
  exact ⟨rfl, rfl⟩

/-- From an odd index above 2 on, the pulses are the runs with the even indices. -/
theorem dataBits_bitLengths (tail : Nat) (bits : List (Nat × Nat)) : ∀ i, 3 ≤ i → i % 2 = 1 →
    dataBits i (bitLengths bits ++ [tail]) = bits.map fun b => decide (20 < b.2) := by
  induction bits with
  | nil =>
    intro i _ hodd
    have not_selected : ¬(4 ≤ i ∧ i % 2 = 0) := by omega
    exact (List.append_nil _).trans (if_neg not_selected)
  | cons b bits ih =>
    intro i hi hodd
    have gap : ¬(4 ≤ i ∧ i % 2 = 0) := by omega
    have pulse : 4 ≤ i + 1 ∧ (i + 1) % 2 = 0 := by omega
    have rest := ih (i + 1 + 1) (by omega) (by omega)
    rw [show bitLengths (b :: bits) ++ [tail] = b.1 :: b.2 :: (bitLengths bits ++ [tail]) from rfl, dataBits, dataBits,
      if_neg gap, if_pos pulse, rest]
    rfl

theorem dataBits_nominal (low high tail : Nat) (bits : List (Nat × Nat)) :
    dataBits 0 ([0, low, high] ++ bitLengths bits ++ [tail]) = bits.map fun b => decide (20 < b.2) := by
  rw [List.append_assoc]
  exact dataBits_bitLengths tail bits 3 (by omega) (by omega)

theorem length_bitLengths (bits : List (Nat × Nat)) : (bitLengths bits).length = 2 * bits.length := by
  simp [bitLengths, List.length_flatMap, Nat.mul_comm]

/-- A nominal frame short of the 1000th sample of its rest ends no capture. -/
theorem captureGoesOn_nominal {low high tail : Nat} {bits : List (Nat × Nat)} (hlen : bits.length = 40)
    (hn : ∀ n ∈ low :: high :: tail :: bitLengths bits, 1 ≤ n ∧ n < 1000) :
    CaptureGoesOn (waveSamples (nominalRuns low high tail bits 999)) := by
  obtain ⟨hclosed, hopen⟩ := runs_nominal (fun n hmem => (hn n hmem).left) (resting := 999) (by omega)
  refine ⟨?_, by omega, ?_⟩
  · rw [hclosed]
    intro n hmem
    obtain rfl | hmem : n = 0 ∨ n ∈ low :: high :: tail :: bitLengths bits := by
      simp only [List.mem_append, List.mem_cons, List.not_mem_nil, or_false] at hmem ⊢
      tauto
    · omega
    · exact (hn n hmem).right
  · rw [hclosed]
    simp [length_bitLengths, hlen]

/-- Settles O49: the frame's rest stalls at its 1000th sample, with the 40 pulses as bits. -/
theorem nominalFrameIsDecoded : Obligations.NominalFrameIsDecoded := by
  unfold Obligations.NominalFrameIsDecoded
  intro s low high tail bits rest hs hlen hn hq
  obtain ⟨hclosed, -⟩ := runs_nominal (fun n hmem => (hn n hmem).left) (resting := 999) (by omega)
  obtain ⟨hclosed', hopen'⟩ := runs_nominal (fun n hmem => (hn n hmem).left) (resting := 999 + 1) (by omega)
  have hbits := dataBits_nominal low high tail bits
  rw [waveSamples_nominalRuns_succ] at hclosed' hopen'
  have samples : s.inputs = (waveSamples (nominalRuns low high tail bits 999) ++ [true]).map Event.tick ++ rest := by
    rw [← waveSamples_nominalRuns_succ, ← lineEvents_wave]
    exact hq
  obtain ⟨t, hrun, hqt, ht, hrec⟩ := runSteps_endsCapture hs (captureGoesOn_nominal hlen hn) (.inl hopen') samples
  rw [hclosed, hbits] at ht
  rw [hclosed'] at hrec
  have count : t.bitcnt.toNat = 40 := by rw [ht.bitcnt, List.length_map, hlen]
  refine ⟨_, t, hrun, hqt, ht.phase, ht.done, count, ht.raw, hrec, fun ho hsum => ?_⟩
  obtain ⟨hcsum, -, hmatch⟩ := ht.read (by omega) ho
  have hb4 := hcsum.trans hsum
  obtain ⟨herr, hrdv, hhum, htemp⟩ := hmatch hb4
  exact ⟨hrdv, herr, hb4, hhum, htemp⟩

end Sys2Proof.Machine

/-! SUPPORT. The Reading Interpreter (spec/41_interpreter.md) in numbers: the comparison of the checksum, the scaler as
integers in tenths, and the command INTERP on a matching and on a mismatching frame. -/

namespace Sys2Proof.Machine

/-! ### The checksum -/

/-- The comparison of the checksum is one of numbers (spec/41_interpreter.md R161). -/
theorem checksum_eq_b4_iff (r : RawSample) :
    checksum r = r.b4 ↔ (r.b0.toNat + r.b1.toNat + r.b2.toNat + r.b3.toNat) % 256 = r.b4.toNat := by
  rw [← BitVec.toNat_inj, checksum_toNat]

/-! ### The scaler

Nothing wraps in it (spec/41_interpreter.md R168). -/

theorem humidity_a_toNat (r : RawSample) : (humidity .a r).toNat = r.b0.toNat * 10 := by
  have hb0 := r.b0.isLt
  rw [humidity, BitVec.toNat_ofNat, Nat.mod_eq_of_lt (by omega)]

theorem humidity_b_toNat (r : RawSample) : (humidity .b r).toNat = r.b0.toNat * 256 + r.b1.toNat := by
  have hb0 := r.b0.isLt
  have hb1 := r.b1.isLt
  rw [humidity, BitVec.toNat_ofNat, Nat.mod_eq_of_lt (by omega)]

/-- A number of 15 bits is itself as a signed word. -/
theorem toInt_ofNat_word {n : Nat} (h : n < 32768) : (BitVec.ofNat 16 n : Word).toInt = n := by
  have hn : (BitVec.ofNat 16 n).toNat = n := by
    rw [BitVec.toNat_ofNat, Nat.mod_eq_of_lt (by omega)]
  rw [BitVec.toInt_eq_toNat_of_lt (by omega), hn]

/-- `neg_16` of a number of 15 bits is its negation, and 0 is its own (spec/41_interpreter.md R168, R169). -/
theorem neg16_toInt {n : Nat} (h : n < 32768) : (neg16 n).toInt = -(n : Int) := by
  have hn : (neg16 n).toNat = (65536 - n) % 65536 := by simp [neg16]
  rw [BitVec.toInt_eq_toNat_cond, hn]
  split <;> omega

theorem temperature_a_toInt (r : RawSample) : (temperature .a r).toInt = r.b2.toNat * 10 := by
  have hb2 := r.b2.isLt
  rw [temperature, toInt_ofNat_word (by omega), Int.natCast_mul, Nat.cast_ofNat]

/-- The sign of variant B's temperature is the top bit of byte 2. -/
theorem signBit_eq_decide (b : Byte) : b.getLsbD 7 = decide (128 ≤ b.toNat) := b.msb_eq_decide

/-- The magnitude drops the sign bit of byte 2. -/
theorem magnitude_eq (r : RawSample) : magnitude r = r.b2.toNat % 128 * 256 + r.b3.toNat := by
  have hlow : (r.b2 &&& 0x7F).toNat = r.b2.toNat % 128 := by
    rw [BitVec.toNat_and]
    exact Nat.and_two_pow_sub_one_eq_mod _ 7
  rw [magnitude, hlow]

/-- Variant B converts from sign and magnitude (spec/41_interpreter.md R166). -/
theorem temperature_b_toInt (r : RawSample) :
    (temperature .b r).toInt = if 128 ≤ r.b2.toNat then -(magnitude r : Int) else magnitude r := by
  have hm := magnitude_lt r
  by_cases hsign : 128 ≤ r.b2.toNat
  · rw [temperature, signBit_eq_decide, decide_eq_true hsign, if_pos rfl, if_pos hsign, neg16_toInt hm]
  · rw [temperature, signBit_eq_decide, decide_eq_false hsign, if_neg Bool.false_ne_true, if_neg hsign,
      toInt_ofNat_word hm]

theorem temperature_b_toInt_of_lt {r : RawSample} (h : r.b2.toNat < 128) :
    (temperature .b r).toInt = r.b2.toNat * 256 + r.b3.toNat := by
  rw [temperature_b_toInt, if_neg (by omega), magnitude_eq]
  omega

theorem temperature_b_toInt_of_le {r : RawSample} (h : 128 ≤ r.b2.toNat) :
    (temperature .b r).toInt = -(((r.b2.toNat - 128 : Nat) : Int) * 256 + r.b3.toNat) := by
  have hb2 := r.b2.isLt
  rw [temperature_b_toInt, if_pos h, magnitude_eq]
  omega

/-! ### The command -/

/-- While idle INTERP is the prologue, its `op` and `interpret` (spec/41_interpreter.md R160). -/
theorem exec_interp_of_idle {s : State} (hs : s.phase = .idle) :
    exec .interp s = .next (interpret { prologue s with op := .interp }) :=
  whenIdle_of_idle (f := fun s => interpret { prologue s with op := .interp }) hs

/-- The state that INTERP leaves where the checksum of an idle block matches (spec/41_interpreter.md R167). -/
theorem exec_interp_of_match {s : State} (hs : s.phase = .idle) (hm : checksum s.raw = s.raw.b4) :
    exec .interp s = .next { s with
      done := true, err := none, rdv := true, csum := s.raw.b4, op := .interp,
      hum := humidity s.variant s.raw, temp := temperature s.variant s.raw } := by
  rw [exec_interp_of_idle hs, interpret_of_match (by exact hm), ← hm, ← hs]
  rfl

/-- The state that INTERP leaves where the checksum of an idle block does not match (spec/41_interpreter.md R162). -/
theorem exec_interp_of_mismatch {s : State} (hs : s.phase = .idle) (hm : checksum s.raw ≠ s.raw.b4) :
    exec .interp s = .next { s with
      done := true, err := some .checksumMismatch, rdv := false, csum := checksum s.raw, hum := 0, temp := 0,
      op := .interp } := by
  rw [exec_interp_of_idle hs, interpret_of_mismatch (by exact hm), raiseFailure, ← hs]
  rfl

/-- Settles O10: the state after a match, and the scaler of either variant as numbers. -/
theorem interpScalesMatchingFrame : Obligations.InterpScalesMatchingFrame := by
  unfold Obligations.InterpScalesMatchingFrame
  intro s hs hsum
  have hmatch : checksum s.raw = s.raw.b4 := (checksum_eq_b4_iff s.raw).mpr hsum
  refine ⟨_, exec_interp_of_match hs hmatch, rfl, fun ha => ?variantA, fun hb => ?variantB⟩
  case variantA =>
    rw [ha]
    exact ⟨humidity_a_toNat s.raw, temperature_a_toInt s.raw⟩
  case variantB =>
    rw [hb]
    exact ⟨humidity_b_toNat s.raw, temperature_b_toInt_of_lt, temperature_b_toInt_of_le⟩

/-- Settles O11: the state after a mismatch, whose CSUM is the computed sum. -/
theorem interpRejectsMismatchedFrame : Obligations.InterpRejectsMismatchedFrame := by
  unfold Obligations.InterpRejectsMismatchedFrame
  intro s hs hsum
  exact ⟨_, exec_interp_of_mismatch hs (mt (checksum_eq_b4_iff s.raw).mp hsum), checksum_toNat s.raw, rfl⟩

/-- Settles O12: the frame's checksum matches, and the scaler puts the divided numbers together again. -/
theorem variantBRoundTrip : Obligations.VariantBRoundTrip := by
  unfold Obligations.VariantBRoundTrip
  intro s h t negative hs hb _ ht h0 h1 h2 h3 h4
  have hmatch : checksum s.raw = s.raw.b4 := (checksum_eq_b4_iff s.raw).mpr h4.symm
  have hhum : (humidity .b s.raw).toNat = h := by
    rw [humidity_b_toNat, h0, h1, Nat.div_add_mod']
  have hmag : magnitude s.raw = t := by
    rw [magnitude_eq, h2, h3]
    omega
  have hsign : 128 ≤ s.raw.b2.toNat ↔ negative = true := by
    cases negative with
    | false =>
      rw [Bool.toNat_false] at h2
      exact iff_of_false (by omega) Bool.false_ne_true
    | true =>
      rw [Bool.toNat_true] at h2
      exact iff_of_true (by omega) rfl
  refine ⟨_, exec_interp_of_match hs hmatch, rfl, rfl, ?_, ?_⟩
  · rw [hb]
    exact hhum
  · rw [hb, temperature_b_toInt, hmag]
    simp only [hsign]

end Sys2Proof.Machine

/-! SUPPORT. Command acceptance and control flow (spec/42_composite_control.md): NOP, the reserved words and the
configuration check, the phase after each event, and READ beside SAMPLE. -/

namespace Sys2Proof.Machine

/-! ### Commands that leave the block idle -/

/-- Settles O7: NOP is the guard of a CMD write around nothing. -/
theorem nopChangesNothing : Obligations.NopChangesNothing := by
  unfold Obligations.NopChangesNothing
  refine ⟨rfl, fun s => ⟨fun hidle => ?idle, fun hbusy => ?busy⟩⟩
  case idle => exact whenIdle_of_idle (f := fun s => s) hidle
  case busy => exact whenIdle_of_busy (f := fun s => s) hbusy

/-- Settles O9: without `cfg_ok` the acceptance is the prologue and a failure, and the block, idle before, drives
nothing. -/
theorem missingConfigurationFailsAtAcceptance : Obligations.MissingConfigurationFailsAtAcceptance := by
  unfold Obligations.MissingConfigurationFailsAtAcceptance
  intro s i o hio hs hcfg
  refine ⟨_, exec_of_accepts hio hs, ?_⟩
  rw [startOperation_of_not_cfgOk hcfg]
  refine ⟨rfl, rfl, ?_⟩
  rw [raiseFailure, ← hs]
  rfl

/-- A reserved word written to CMD is rejected by name (spec/30_encoding.md R92). -/
theorem writeCmd_of_reserved {d : Word} (h : 4 ≤ d.toNat) (s : State) : writeCmd d s = reservedCommand s := by
  simp [writeCmd, decode_eq_reservedWord_iff.mpr h]

/-- What a reserved word does to an idle block (spec/42_composite_control.md R183). -/
theorem reservedCommand_of_idle {s : State} (h : s.phase = .idle) :
    reservedCommand s = .next (raiseFailure .illegalCommand { prologue s with op := .none }) :=
  whenIdle_of_idle (f := fun s => raiseFailure .illegalCommand { prologue s with op := .none }) h

/-- Settles O13: the word is rejected, and the rejection is the prologue and a failure. -/
theorem reservedWordIsIllegalCommand : Obligations.ReservedWordIsIllegalCommand := by
  unfold Obligations.ReservedWordIsIllegalCommand
  intro s d ok rest hn hd hs
  rw [step_of_hostWrite hn]
  refine (writeCmd_of_reserved hd _).trans ?_
  rw [reservedCommand_of_idle (by exact hs), raiseFailure, ← hs]
  rfl

/-! ### The control-flow graph -/

/-- Acceptance enters WAKE, or fails without `cfg_ok` (spec/42_composite_control.md R184). -/
theorem startOperation_phase (o : Op) (s : State) :
    (startOperation o s).phase = if s.cfgOk = true then .wake else .idle := by
  cases h : s.cfgOk with
  | true => rw [startOperation_of_cfgOk h]; rfl
  | false => rw [startOperation_of_not_cfgOk h]; rfl

/-- A guarded write whose effect leaves an idle block idle moves no phase. -/
theorem whenIdle_keeps_phase {f : State → State} {s : State} (hf : s.phase = .idle → (f s).phase = .idle) :
    ∃ t, whenIdle f s = .next t ∧ t.phase = s.phase := by
  by_cases hs : s.phase = .idle
  · exact ⟨f s, whenIdle_of_idle hs, (hf hs).trans hs.symm⟩
  · exact ⟨overrun s, whenIdle_of_busy hs, rfl⟩

/-- A guarded acceptance enters WAKE from IDLE with `cfg_ok`, and moves no phase else. -/
theorem whenIdle_startOperation_phase (o : Op) (s : State) :
    ∃ t, whenIdle (startOperation o) s = .next t ∧
      t.phase = if s.phase = .idle ∧ s.cfgOk = true then .wake else s.phase := by
  by_cases hs : s.phase = .idle
  · exact ⟨_, whenIdle_of_idle hs, by rw [startOperation_phase]; simp [hs]⟩
  · exact ⟨_, whenIdle_of_busy hs, by simp [hs]⟩

/-- The one edge out of IDLE is the acceptance of READ or SAMPLE (spec/42_composite_control.md R187). -/
theorem writeCmd_phase (d : Word) (s : State) :
    ∃ t, writeCmd d s = .next t ∧
      t.phase = if s.phase = .idle ∧ (d = 1 ∨ d = 2) ∧ s.cfgOk = true then .wake else s.phase := by
  by_cases hd : d = 1 ∨ d = 2
  · simp only [hd, true_and]
    rcases hd with rfl | rfl
    · exact whenIdle_startOperation_phase .read s
    · exact whenIdle_startOperation_phase .sample s
  · simp only [hd, false_and, and_false, if_false]
    rcases writeCmd_cases d s with ⟨i, rfl, hw⟩ | ⟨_, hw⟩ <;> rw [hw]
    · cases i with
      | nop => exact whenIdle_keeps_phase (f := fun s => s) id
      | read => exact absurd (.inl rfl) hd
      | sample => exact absurd (.inr rfl) hd
      | interp =>
        exact whenIdle_keeps_phase (f := fun s => interpret { prologue s with op := .interp }) fun _ =>
          interpret_phase _
    · exact whenIdle_keeps_phase (f := fun s => raiseFailure .illegalCommand { prologue s with op := .none }) fun _ =>
        rfl

/-- A host write moves the phase by the acceptance of READ or SAMPLE only. -/
theorem hostWrite_phase (a : RegIndex) (d : Word) (s : State) :
    ∃ t, hostWrite a d s = .next t ∧
      t.phase = if s.phase = .idle ∧ a = 0 ∧ (d = 1 ∨ d = 2) ∧ s.cfgOk = true then .wake else s.phase := by
  by_cases ha : a = 0
  · subst ha
    simp only [true_and]
    exact writeCmd_phase d s
  · simp only [ha, false_and, and_false, if_false]
    rcases hostWrite_cases a d s with ⟨h0, _⟩ | ⟨_, hw⟩ | ⟨_, hw⟩ | ⟨_, _, hw⟩ | ⟨_, hw⟩
    · exact absurd h0 ha
    · exact hw ▸ whenIdle_keeps_phase id
    · exact ⟨_, hw, by rw [writeStatus_eq]⟩
    · exact hw ▸ whenIdle_keeps_phase id
    · exact ⟨s, hw, rfl⟩

/-- The edges that a tick takes (spec/42_composite_control.md R187). -/
def phaseAfterTick (level : Level) (s : State) : Phase :=
  match s.phase with
  | .idle => .idle
  | .wake => if (s.tcnt + 1).toNat = Config.tWake then .req else .wake
  | .req => if (s.tcnt + 1).toNat = Config.tReq then .rel else .req
  | .rel => if (s.tcnt + 1).toNat = Config.tRel then .wait else .rel
  | .wait => if level = false then .capt else if (s.tcnt + 1).toNat = Config.nWait then .idle else .wait
  | .capt =>
    if (level = s.ref ∧ (s.dur + 1).toNat = Config.nStall) ∨ (level ≠ s.ref ∧ (s.idx + 1).toNat = Config.nTrans) then
      .idle
    else .capt

theorem tickDrive_phase (limit : Nat) (p : Phase) (s : State) :
    (tickDrive limit p s).phase = if (s.tcnt + 1).toNat = limit then p else s.phase := apply_ite State.phase _ _ _

theorem tickWait_phase (level : Level) (s : State) :
    (tickWait level s).phase =
      if level = false then .capt else if (s.tcnt + 1).toNat = Config.nWait then .idle else s.phase := by
  unfold tickWait
  split_ifs <;> rfl

theorem tickSame_phase (s : State) :
    (tickSame s).phase = if (s.dur + 1).toNat = Config.nStall then .idle else s.phase := by
  rcases tickSame_cases s with ⟨h, ht⟩ | ⟨h, ht⟩ <;> rw [ht]
  · rw [endOfCapture_phase, if_pos h]
  · rw [if_neg h]

theorem tickChange_phase (level : Level) (s : State) :
    (tickChange level s).phase = if (s.idx + 1).toNat = Config.nTrans then .idle else s.phase := by
  rcases tickChange_cases level s with ⟨h, ht⟩ | ⟨h, ht⟩ <;> rw [ht]
  · rw [endOfCapture_phase, if_pos h]
  · rw [if_neg h]; exact closeRun_phase s

theorem tick_phase (level : Level) (s : State) : (tick level s).phase = phaseAfterTick level s := by
  unfold phaseAfterTick
  cases hp : s.phase with
  | idle => rw [tick_of_idle level hp, hp]
  | wake => rw [tick_of_wake level hp, tickDrive_phase, hp]
  | req => rw [tick_of_req level hp, tickDrive_phase, hp]
  | rel => rw [tick_of_rel level hp, tickDrive_phase, hp]
  | wait => rw [tick_of_wait level hp, tickWait_phase, hp]
  | capt =>
    by_cases hl : level = s.ref
    · subst hl; rw [tick_of_capt_same hp, tickSame_phase, hp]; simp
    · rw [tick_of_capt_change hp hl, tickChange_phase, hp]; simp [hl]

/-- Settles O34, one event at a time: the edges are those of the acceptance and of the ticks. -/
theorem phaseFollowsControlFlowGraph : Obligations.PhaseFollowsControlFlowGraph := by
  unfold Obligations.PhaseFollowsControlFlowGraph
  intro s e rest hn
  cases e with
  | reset => exact ⟨_, step_of_reset hn, rfl⟩
  | underReset x => exact ⟨_, step_of_placed hn, by cases x <;> rfl⟩
  | access x =>
    cases x with
    | hostWrite a d ok => exact step_of_hostWrite hn ▸ hostWrite_phase a d { atAccess s rest with cfgOk := ok }
    | hostRead a => exact ⟨_, step_of_hostRead hn, rfl⟩
    | tick level => exact ⟨_, step_of_tick hn, tick_phase level (atAccess s rest)⟩

/-! ### READ beside SAMPLE -/

/-- `s` as an operation of READ. -/
def asRead (s : State) : State := { s with op := .read }

/-! `op` plays no part before the end of a capture. -/

theorem startOperation_asRead (s : State) : startOperation .read s = asRead (startOperation .sample s) := by
  unfold startOperation
  rw [apply_ite asRead]
  rfl

theorem tickDrive_asRead (limit : Nat) (p : Phase) (s : State) :
    tickDrive limit p (asRead s) = asRead (tickDrive limit p s) := by
  unfold tickDrive
  rw [apply_ite asRead]
  rfl

theorem tickWait_asRead (level : Level) (s : State) : tickWait level (asRead s) = asRead (tickWait level s) := by
  unfold tickWait
  rw [apply_ite asRead, apply_ite asRead]
  rfl

theorem pushBit_asRead (b : Bool) (s : State) : pushBit b (asRead s) = asRead (pushBit b s) := by
  unfold pushBit
  rw [apply_dite asRead]
  rfl

theorem closeRun_asRead (s : State) : closeRun (asRead s) = asRead (closeRun s) := by
  rw [closeRun_eq, closeRun_eq, apply_ite asRead, ← pushBit_asRead]
  rfl

/-! ### INTERP after SAMPLE -/

/-- The state that INTERP makes of an idle block (spec/41_interpreter.md R160). -/
def interpreted (s : State) : State := interpret { prologue s with op := .interp }

theorem interpreted_withInputs (q : List Event) (s : State) :
    interpreted (withInputs q s) = withInputs q (interpreted s) :=
  interpret_withInputs q { prologue s with op := .interp }

theorem interpreted_clearOutputs (s : State) : interpreted (clearOutputs s) = clearOutputs (interpreted s) := by
  unfold interpreted interpret
  rw [apply_ite clearOutputs]
  rfl

/-- The prologue has nothing but DONE to forget of a SAMPLE that succeeded. -/
theorem prologue_of_noResult {s : State} (h : NoResult s) : prologue s = { s with done := false } := by
  obtain ⟨hrdv, herr, hcsum, hhum, htemp⟩ := h
  simp [prologue, hrdv, herr, hcsum, hhum, htemp]

/-- INTERP on the end of a SAMPLE makes what the end of the READ makes, but for `op` (spec/40_decoder.md R137). -/
theorem asRead_interpreted_finish {s : State} (h : NoResult s) :
    asRead (interpreted (finish s)) = interpret (asRead s) := by
  unfold interpreted
  rw [prologue_of_noResult (s := finish s) { h with }]
  unfold interpret
  rw [apply_ite asRead]
  rfl

/-! ### The two operations side by side -/

/-- SAMPLE is running in `s`: busy, and with no result yet (spec/42_composite_control.md R180). -/
structure Sampling (s : State) : Prop extends NoResult s where
  busy : s.phase ≠ .idle
  op : s.op = .sample

/-- The state of a SAMPLE, and that of a READ which took the same samples (spec/42_composite_control.md R185). -/
inductive ReadBeside : State → State → Prop
  | running {p : State} (hp : Sampling p) : ReadBeside p (asRead p)
  | failed {p : State} (hidle : p.phase = .idle) (herr : p.err ≠ none) : ReadBeside p (asRead p)
  | succeeded {p : State} (hidle : p.phase = .idle) (herr : p.err = none) : ReadBeside p (asRead (interpreted p))

namespace Sampling

variable {s : State}

theorem endOfCapture (h : Sampling s) : ReadBeside (endOfCapture s) (endOfCapture (asRead s)) := by
  by_cases hgate : s.bitcnt.toNat < 39
  · rw [endOfCapture_of_few_bits hgate, endOfCapture_of_few_bits (s := asRead s) hgate]
    exact .failed (p := raiseFailure .insufficientBits s) rfl (by simp)
  · have enough : 39 ≤ s.bitcnt.toNat := Nat.not_lt.mp hgate
    rw [endOfCapture_of_sample enough h.op, endOfCapture_of_read (s := asRead s) enough rfl,
      ← asRead_interpreted_finish h.toNoResult]
    exact .succeeded rfl h.err

theorem tickDrive (h : Sampling s) (limit : Nat) {next : Phase} (hnext : next ≠ .idle) :
    ReadBeside (tickDrive limit next s) (tickDrive limit next (asRead s)) := by
  rw [tickDrive_asRead]
  rcases tickDrive_cases limit next s with ⟨_, ht⟩ | ⟨_, ht⟩ <;> rw [ht]
  · exact .running { h with busy := hnext }
  · exact .running { h with }

theorem tickWait (h : Sampling s) (level : Level) :
    ReadBeside (tickWait level s) (tickWait level (asRead s)) := by
  rw [tickWait_asRead]
  rcases tickWait_cases level s with ⟨_, ht⟩ | ⟨_, _, ht⟩ | ⟨_, _, ht⟩ <;> rw [ht]
  · exact .running { h with busy := by simp }
  · exact .failed rfl (by simp)
  · exact .running { h with }

theorem tickSame (h : Sampling s) : ReadBeside (tickSame s) (tickSame (asRead s)) := by
  have longer : Sampling { s with dur := s.dur + 1 } := { h with }
  unfold Machine.tickSame
  rw [show (asRead s).dur = s.dur from rfl]
  split
  · exact longer.endOfCapture
  · exact .running longer

theorem closeRun (h : Sampling s) : Sampling (closeRun s) := by
  obtain ⟨⟨hrdv, herr, hcsum, hhum, htemp⟩, hbusy, hop⟩ := h
  refine ⟨⟨?_, ?_, ?_, ?_, ?_⟩, ?_, ?_⟩ <;> simpa

theorem tickChange (h : Sampling s) (level : Level) :
    ReadBeside (tickChange level s) (tickChange level (asRead s)) := by
  have closed : Sampling { Machine.closeRun s with ref := level, dur := 1, idx := s.idx + 1 } := { h.closeRun with }
  unfold Machine.tickChange
  rw [closeRun_asRead, show (asRead s).idx = s.idx from rfl]
  dsimp only
  split
  · exact closed.endOfCapture
  · exact .running closed

theorem tick (h : Sampling s) (level : Level) : ReadBeside (tick level s) (tick level (asRead s)) := by
  cases hp : s.phase with
  | idle => exact absurd hp h.busy
  | wake =>
    rw [tick_of_wake level hp, tick_of_wake (s := asRead s) level hp]
    exact h.tickDrive _ (by decide)
  | req =>
    rw [tick_of_req level hp, tick_of_req (s := asRead s) level hp]
    exact h.tickDrive _ (by decide)
  | rel =>
    rw [tick_of_rel level hp, tick_of_rel (s := asRead s) level hp]
    exact h.tickDrive _ (by decide)
  | wait =>
    rw [tick_of_wait level hp, tick_of_wait (s := asRead s) level hp]
    exact h.tickWait level
  | capt =>
    by_cases hl : level = s.ref
    · subst hl
      rw [tick_of_capt_same hp, show s.ref = (asRead s).ref from rfl, tick_of_capt_same (s := asRead s) hp]
      exact h.tickSame
    · rw [tick_of_capt_change hp hl, tick_of_capt_change (s := asRead s) hp hl]
      exact h.tickChange level

end Sampling

namespace ReadBeside

variable {p r : State}

/-- A tick keeps the two operations side by side; after their end it does nothing (spec/40_decoder.md R144). -/
theorem tickStep (h : ReadBeside p r) (level : Level) : ReadBeside (tickStep p level) (tickStep r level) := by
  unfold Machine.tickStep
  cases h with
  | running hp => exact Sampling.tick (s := clearOutputs p) { hp with } level
  | failed hidle herr =>
    rw [tick_of_idle (s := clearOutputs p) level hidle, tick_of_idle (s := clearOutputs (asRead p)) level hidle]
    exact .failed (p := clearOutputs p) hidle herr
  | succeeded hidle herr =>
    rw [tick_of_idle (s := clearOutputs p) level hidle,
      tick_of_idle (s := clearOutputs (asRead (interpreted p))) level (interpret_phase _)]
    change ReadBeside _ (asRead (clearOutputs (interpreted p)))
    rw [← interpreted_clearOutputs]
    exact .succeeded hidle herr

theorem withInputs (h : ReadBeside p r) (q : List Event) : ReadBeside (withInputs q p) (withInputs q r) := by
  cases h with
  | running hp => exact running (p := Machine.withInputs q p) { hp with }
  | failed hidle herr => exact failed (p := Machine.withInputs q p) hidle herr
  | succeeded hidle herr =>
    change ReadBeside _ (asRead (Machine.withInputs q (interpreted p)))
    rw [← interpreted_withInputs]
    exact .succeeded hidle herr

/-- The two operations stay side by side along any samples. -/
theorem foldl (samples : List Level) : ∀ {p r : State}, ReadBeside p r →
    ReadBeside (samples.foldl Machine.tickStep p) (samples.foldl Machine.tickStep r) := by
  induction samples with
  | nil => exact id
  | cons level samples ih => exact fun h => ih (h.tickStep level)

theorem eq_of_running_or_failed (h : ReadBeside p r) (hp : p.phase ≠ .idle ∨ p.err ≠ none) : r = asRead p := by
  cases h with
  | running | failed => rfl
  | succeeded hidle herr => exact absurd hp (by simp [hidle, herr])

theorem exec_interp_of_succeeded (h : ReadBeside p r) (hidle : p.phase = .idle) (herr : p.err = none) :
    ∃ q, exec .interp p = .next q ∧ r = asRead q := by
  cases h with
  | running hp => exact absurd hidle hp.busy
  | failed _ hfailed => exact absurd herr hfailed
  | succeeded => exact ⟨_, exec_interp_of_idle hidle, rfl⟩

end ReadBeside

/-- Settles O44: the acceptances differ in `op`, and every tick keeps the two operations side by side. -/
theorem readIsSampleThenInterp : Obligations.ReadIsSampleThenInterp := by
  unfold Obligations.ReadIsSampleThenInterp
  refine ⟨fun s ok rest hs => ?acceptance, fun s samples rest hbusy hop _ hrdv herr hcsum hhum htemp hq => ?run⟩
  case acceptance =>
    refine ⟨_, step_of_acceptance (.inr ⟨rfl, rfl⟩) hs rfl, ?_, ?_⟩
    · have accepted := step_of_acceptance (s := { s with inputs := .hostWrite 0 1 ok :: rest }) (.inl ⟨rfl, rfl⟩) hs rfl
      exact accepted.trans (congrArg _ (startOperation_asRead _))
    · rintro rfl
      rw [startOperation_of_cfgOk rfl]
      exact ⟨by simp, rfl, rfl, rfl, rfl, rfl, rfl, rfl⟩
  case run =>
    have start : ReadBeside s (asRead s) := .running ⟨⟨hrdv, herr, hcsum, hhum, htemp⟩, hbusy, hop⟩
    have stop := (start.foldl samples).withInputs rest
    exact ⟨_, _, runSteps_ticks samples rest s hq, runSteps_ticks samples rest (asRead s) hq, rfl,
      stop.eq_of_running_or_failed, stop.exec_interp_of_succeeded⟩

end Sys2Proof.Machine

/-! SUPPORT. The failures (spec/60_exceptions.md): their one entry, the step that always answers, and what raises each
code. -/

namespace Sys2Proof.Machine

/-! ### The entry of a failure -/

/-- Settles O28: the entry is IDLE, and the outputs follow the phase. -/
theorem failureEntry : Obligations.FailureEntry := by
  unfold Obligations.FailureEntry
  intro f s
  have hidle : (raiseFailure f s).phase = .idle := raiseFailure_phase f s
  exact ⟨rfl, busy_eq_false.mpr hidle, by rw [lineOe, hidle]⟩

/-! ### No event stops the block -/

/-- Every event has an effect (spec/60_exceptions.md R210). -/
theorem takeEvent_answers_next (e : Event) (s : State) : ∃ t, takeEvent e s = .next t := by
  cases e with
  | reset => exact ⟨_, rfl⟩
  | underReset x => exact ⟨_, rfl⟩
  | access x =>
    cases x with
    | hostWrite a d ok => exact (hostWrite_phase a d (atWrite s ok)).imp fun _ => And.left
    | hostRead a => exact ⟨_, rfl⟩
    | tick level => exact ⟨_, rfl⟩

/-- Settles O5: a step is an event, placed or free. -/
theorem everyStepAnswersNext : Obligations.EveryStepAnswersNext := by
  unfold Obligations.EveryStepAnswersNext
  exact fun s => takeEvent_answers_next _ _

/-! ### What raises each code -/

/-- The table of spec/60_exceptions.md R201: an event in state `s` with the state `t` after it, and the code that it
raises. One constructor for each place that raises a code. -/
inductive FailureCause (s t : State) : Event → Failure → Prop
  | noLowSample (hp : s.phase = .wait) (hcount : (s.tcnt + 1).toNat = Config.nWait) :
      FailureCause s t (.tick true) .timeout
  | tooFewBits (level : Level) (hp : s.phase = .capt) (hbits : t.bitcnt.toNat < Config.minBits) :
      FailureCause s t (.tick level) .insufficientBits
  | capturedMismatch (level : Level) (hp : s.phase = .capt) (hop : s.op ≠ .sample)
      (hbits : Config.minBits ≤ t.bitcnt.toNat) (hsum : checksum t.raw ≠ t.raw.b4) (hcsum : t.csum = checksum t.raw) :
      FailureCause s t (.tick level) .checksumMismatch
  | interpMismatch (ok : Bool) (hs : s.phase = .idle) (hsum : checksum t.raw ≠ t.raw.b4)
      (hcsum : t.csum = checksum t.raw) : FailureCause s t (.hostWrite 0 3 ok) .checksumMismatch
  | notConfigured (d : Word) (hs : s.phase = .idle) (hd : d = 1 ∨ d = 2) :
      FailureCause s t (.hostWrite 0 d false) .configurationFailure
  | reservedWord (d : Word) (ok : Bool) (hs : s.phase = .idle) (hd : 4 ≤ d.toNat) :
      FailureCause s t (.hostWrite 0 d ok) .illegalCommand

section Causes

variable {s : State} {f : Failure}

/-- The Interpreter raises ChecksumMismatch only, and only on a mismatch (spec/41_interpreter.md R162). -/
theorem mismatch_of_interpret_err (hs : s.err ≠ some f) (ht : (interpret s).err = some f) :
    f = .checksumMismatch ∧ checksum s.raw ≠ s.raw.b4 := by
  by_cases hsum : checksum s.raw = s.raw.b4
  · rw [interpret_of_match hsum] at ht
    exact absurd ht hs
  · rw [interpret_of_mismatch hsum] at ht
    exact ⟨(Option.some.inj ht).symm, hsum⟩

/-- Acceptance fails exactly without `cfg_ok` (spec/42_composite_control.md R184). -/
theorem startOperation_err (o : Op) (s : State) :
    (startOperation o s).err = if s.cfgOk = true then none else some .configurationFailure := by
  cases h : s.cfgOk with
  | true => rw [startOperation_of_cfgOk h]; rfl
  | false => rw [startOperation_of_not_cfgOk h]; rfl

/-- An acceptance that fails had `cfg_ok` = 0. -/
theorem notConfigured_of_startOperation_err {o : Op} (ht : (startOperation o s).err = some f) :
    s.cfgOk = false ∧ f = .configurationFailure := by
  cases hok : s.cfgOk with
  | true => simp [startOperation_err, hok] at ht
  | false => exact ⟨rfl, by simpa [startOperation_err, hok] using ht.symm⟩

/-- The end of a capture fails at the gate or in the Interpreter (spec/40_decoder.md R136, R137); `u` is the state of
the capture with its last sample counted. -/
theorem failureCause_endOfCapture {u : State} (level : Level) (hp : s.phase = .capt) (hop : u.op = s.op)
    (hu : u.err ≠ some f) (ht : (endOfCapture u).err = some f) :
    FailureCause s (endOfCapture u) (.tick level) f := by
  rcases endOfCapture_cases u with ⟨hbits, h⟩ | ⟨_, _, h⟩ | ⟨hbits, hsample, h⟩ <;> rw [h] at ht ⊢
  · obtain rfl := Option.some.inj ht
    exact .tooFewBits level hp hbits
  · exact absurd ht hu
  · obtain ⟨rfl, hsum⟩ := mismatch_of_interpret_err hu ht
    exact .capturedMismatch level hp (hop ▸ hsample) (by simpa using hbits) (by simpa using hsum) (by simp)

theorem tickDrive_err (limit : Nat) (p : Phase) (s : State) : (tickDrive limit p s).err = s.err := by
  rcases tickDrive_cases limit p s with ⟨_, h⟩ | ⟨_, h⟩ <;> rw [h]

/-- A tick raises a code in WAIT and at the end of a capture only. -/
theorem failureCause_tick (level : Level) (hs : s.err ≠ some f) (ht : (tick level (clearOutputs s)).err = some f) :
    FailureCause s (tick level (clearOutputs s)) (.tick level) f := by
  rcases tick_cases level (clearOutputs s) with
    ⟨_, h⟩ | ⟨_, h⟩ | ⟨_, h⟩ | ⟨_, h⟩ | ⟨hp, h⟩ | ⟨hp, _, h⟩ | ⟨hp, _, h⟩ <;> rw [h] at ht ⊢
  case inl => exact absurd ht hs
  case inr.inl | inr.inr.inl | inr.inr.inr.inl => exact absurd ((tickDrive_err _ _ (clearOutputs s)).symm.trans ht) hs
  · rcases tickWait_cases level (clearOutputs s) with ⟨_, h⟩ | ⟨rfl, hcount, h⟩ | ⟨_, _, h⟩ <;> rw [h] at ht
    · exact absurd ht hs
    · obtain rfl := Option.some.inj ht
      exact .noLowSample hp hcount
    · exact absurd ht hs
  · rcases tickSame_cases (clearOutputs s) with ⟨_, h⟩ | ⟨_, h⟩ <;> rw [h] at ht ⊢
    · exact failureCause_endOfCapture level hp rfl hs ht
    · exact absurd ht hs
  · rcases tickChange_cases level (clearOutputs s) with ⟨_, h⟩ | ⟨_, h⟩ <;> rw [h] at ht ⊢
    · exact failureCause_endOfCapture level hp (closeRun_op _) (by simpa using hs) ht
    · exact absurd (by simpa using ht) hs

/-- Every effect that brings a code has the cause of that code. -/
theorem StepEffect.failureCause {t : State} {e : Event} (h : StepEffect s e t) (hs : s.err ≠ some f)
    (ht : t.err = some f) : FailureCause s t e f := by
  cases h with
  | reset | writeUnderReset | tickUnderReset | readUnderReset => exact absurd ht (Option.some_ne_none f).symm
  | tick level => exact failureCause_tick level hs ht
  | writeStatus d ok => exact absurd (by simpa [writeStatus_eq] using ht) hs
  | hostRead | discarded | ignored | writeCfg | writeRaw | nop => exact absurd ht hs
  | read ok hidle =>
    obtain ⟨rfl, rfl⟩ := notConfigured_of_startOperation_err ht
    exact .notConfigured 1 hidle (.inl rfl)
  | sample ok hidle =>
    obtain ⟨rfl, rfl⟩ := notConfigured_of_startOperation_err ht
    exact .notConfigured 2 hidle (.inr rfl)
  | interp ok hidle =>
    obtain ⟨rfl, hsum⟩ := mismatch_of_interpret_err (Option.some_ne_none f).symm ht
    exact .interpMismatch ok hidle (by simpa using hsum) (by simp)
  | reserved d ok hidle hd =>
    obtain rfl := Option.some.inj ht
    exact .reservedWord d ok hidle hd

end Causes

/-- Settles O38: the row of R201 read off the cause. -/
theorem failureCodeHasItsCause : Obligations.FailureCodeHasItsCause := by
  unfold Obligations.FailureCodeHasItsCause
  intro s t e rest f hn hst ht hs
  have cause : FailureCause { s with inputs := rest } t e f := (stepEffect_of_placed hn hst).failureCause hs ht
  cases cause with
  | noLowSample hp hcount => exact ⟨hp, rfl, hcount⟩
  | tooFewBits level hp hbits => exact ⟨hp, ⟨level, rfl⟩, hbits⟩
  | capturedMismatch level hp hop hbits hsum hcsum => exact ⟨hsum, hcsum, .inl ⟨hp, ⟨level, rfl⟩, hop, hbits⟩⟩
  | interpMismatch ok hidle hsum hcsum => exact ⟨hsum, hcsum, .inr ⟨hidle, ok, rfl⟩⟩
  | notConfigured d hidle hd => exact ⟨hidle, d, hd, rfl⟩
  | reservedWord d ok hidle hd => exact ⟨hidle, d, ok, hd, rfl⟩

end Sys2Proof.Machine

/-! SUPPORT. Reset, and how long the handshake takes (spec/70_reset_and_hazards.md): the reset event and the accesses
under it, and the driven phases one after the other as folds over their samples. -/

namespace Sys2Proof.Machine

/-! ### Reset -/

/-- An access that arrives while `rst` is 1 (spec/70_reset_and_hazards.md R230). -/
theorem step_of_underReset {s : State} {x : Access} {rest : List Event} (h : s.inputs = Event.underReset x :: rest) :
    step s = .next (accessUnderReset x { s with inputs := rest }) := step_of_placed h

/-- Every register is 0 after reset (spec/10_state.md R43), so every index of the map reads 0. -/
theorem readReg_reset : ∀ a : RegIndex, readReg a State.reset = 0 := by decide

/-- The fields that stay over a reset are not in the register map. -/
theorem readReg_resetBlock (a : RegIndex) (s : State) : readReg a (resetBlock s) = 0 :=
  calc readReg a (resetBlock s) = readReg a State.reset := rfl
    _ = 0 := readReg_reset a

/-- Settles O32: every event with `rst` = 1 is `resetBlock`; a read then finds 0. -/
theorem resetEventClearsBlock : Obligations.ResetEventClearsBlock := by
  unfold Obligations.ResetEventClearsBlock
  intro s e rest hn
  refine ⟨resetBlock { s with inputs := rest }, rfl, rfl, rfl, rfl, rfl, rfl, ?reset, ?tick, ?write, ?read⟩
  case reset => rintro rfl; exact step_of_reset hn
  case tick => rintro level rfl; exact step_of_underReset hn
  case write => rintro a d ok rfl; exact step_of_underReset hn
  case read =>
    rintro a rfl
    rw [step_of_underReset hn, accessUnderReset, hostRead, readReg_resetBlock]

/-! ### The driven phases -/

/-- Each tick of the phase `p` counts to `limit`, where `next` follows (spec/40_decoder.md R122 to R124). -/
structure Drives (p : Phase) (limit : Nat) (next : Phase) : Prop where
  positive : 0 < limit
  fits : limit < 2 ^ 18
  tick_eq : ∀ (level : Level) (s : State), s.phase = p → tick level s = tickDrive limit next s

theorem drives_wake : Drives .wake 250000 .req := ⟨by decide, by decide, fun level _ hp => tick_of_wake level hp⟩

theorem drives_req : Drives .req 20000 .rel := ⟨by decide, by decide, fun level _ hp => tick_of_req level hp⟩

theorem drives_rel : Drives .rel 40 .wait := ⟨by decide, by decide, fun level _ hp => tick_of_rel level hp⟩

/-- The first tick of the phase `p` is still to come, and no output of an earlier event is left. -/
structure PhaseStart (p : Phase) (s : State) : Prop where
  phase : s.phase = p
  tcnt : s.tcnt = 0
  rdata : s.rdata = none
  record : s.record = none

section DrivenPhase

variable {p next : Phase} {limit : Nat} {s : State} {samples : List Level}

theorem PhaseStart.enter (h : PhaseStart p s) : PhaseStart next { s with tcnt := 0, phase := next } :=
  ⟨rfl, rfl, h.rdata, h.record⟩

/-- Fewer samples than the limit leave the phase. -/
theorem Drives.foldl_phase (hd : Drives p limit next) (h : PhaseStart p s) (hlen : samples.length < limit) :
    (samples.foldl tickStep s).phase = p := by
  have short : s.tcnt.toNat + samples.length < limit := by simpa [h.tcnt] using hlen
  rw [foldl_tickStep_of_short p next limit hd.fits hd.tick_eq samples s h.phase h.rdata h.record short]
  exact h.phase

/-- The first `limit` samples bring the start of the next phase. -/
theorem Drives.foldl_eq_foldl_drop (hd : Drives p limit next) (h : PhaseStart p s) (hlen : limit ≤ samples.length) :
    samples.foldl tickStep s = (samples.drop limit).foldl tickStep { s with tcnt := 0, phase := next } := by
  have full : (samples.take limit).foldl tickStep s = { s with tcnt := 0, phase := next } :=
    foldl_tickStep_of_full p next limit hd.fits hd.tick_eq _ (List.length_take_of_le hlen) hd.positive s h.phase
      h.rdata h.record h.tcnt
  rw [← full, ← List.foldl_append, List.take_append_drop]

end DrivenPhase

/-! ### The handshake -/

/-- The phase after `n` ticks of the handshake. -/
def handshakePhase (n : Nat) : Phase := if n < 250000 then .wake else if n < 270000 then .req else .rel

section Handshake

variable {s : State} {samples : List Level}

theorem lineOe_of_handshakePhase {n : Nat} (h : s.phase = handshakePhase n) : lineOe s = true := by
  rw [lineOe_eq_true, h, handshakePhase]
  split_ifs <;> simp

theorem lineOut_of_handshakePhase {n : Nat} (h : s.phase = handshakePhase n) :
    lineOut s = true ↔ n < 250000 ∨ 270000 ≤ n := by
  rw [lineOut_eq_true, h, handshakePhase]
  split_ifs <;> simp <;> omega

theorem PhaseStart.foldl_handshake_phase (h : PhaseStart .wake s) (hlen : samples.length < 270040) :
    (samples.foldl tickStep s).phase = handshakePhase samples.length := by
  unfold handshakePhase
  split_ifs with hwake hreq
  · exact drives_wake.foldl_phase h hwake
  · rw [drives_wake.foldl_eq_foldl_drop h (by omega)]
    exact drives_req.foldl_phase h.enter (by rw [List.length_drop]; omega)
  · rw [drives_wake.foldl_eq_foldl_drop h (by omega),
      drives_req.foldl_eq_foldl_drop h.enter (by rw [List.length_drop]; omega)]
    exact drives_rel.foldl_phase h.enter.enter (by simp only [List.length_drop]; omega)

theorem PhaseStart.foldl_handshake (h : PhaseStart .wake s) (hlen : samples.length = 270040) :
    samples.foldl tickStep s = { s with phase := .wait, tcnt := 0 } := by
  rw [drives_wake.foldl_eq_foldl_drop h (by omega),
    drives_req.foldl_eq_foldl_drop h.enter (by rw [List.length_drop]; omega),
    drives_rel.foldl_eq_foldl_drop h.enter.enter (by simp only [List.length_drop]; omega),
    List.drop_drop, List.drop_drop, List.drop_eq_nil_of_le (by omega), List.foldl_nil]

/-- Every tick clears the outputs of the event before it (spec/10_state.md R42), so they may be cleared at once. -/
theorem foldl_tickStep_clearOutputs (h : samples ≠ []) (s : State) :
    samples.foldl tickStep (clearOutputs s) = samples.foldl tickStep s := by
  cases samples with
  | nil => exact absurd rfl h
  | cons level samples => rfl

theorem foldl_tickStep_clearOutputs_phase (samples : List Level) (s : State) :
    (samples.foldl tickStep (clearOutputs s)).phase = (samples.foldl tickStep s).phase := by
  cases samples <;> rfl

end Handshake

/-- Settles O21: the three driven phases one after the other; the line follows the phase. -/
theorem handshakeTakes270040Ticks : Obligations.HandshakeTakes270040Ticks := by
  unfold Obligations.HandshakeTakes270040Ticks
  intro s samples rest hp h0 hlen hq
  have start : PhaseStart .wake (clearOutputs s) := ⟨hp, h0, rfl, rfl⟩
  refine ⟨?released, fun n hn => ?driven⟩
  case released =>
    have hrun := runSteps_ticks samples rest s hq
    have nonempty : samples ≠ [] := List.ne_nil_of_length_pos (by omega)
    rw [hlen, ← foldl_tickStep_clearOutputs nonempty, start.foldl_handshake hlen] at hrun
    exact hrun
  case driven =>
    have taken : (samples.take n).length = n := List.length_take_of_le (by omega)
    have phase : ((samples.take n).foldl tickStep s).phase = handshakePhase n := by
      rw [← foldl_tickStep_clearOutputs_phase, start.foldl_handshake_phase (by omega), taken]
    exact ⟨_, runSteps_ticks_take samples n (by omega) rest s hq, lineOe_of_handshakePhase phase,
      lineOut_of_handshakePhase phase⟩

end Sys2Proof.Machine

/-! SUPPORT. The events that nobody placed (the model's choice of form, log 2). -/

namespace Sys2Proof.Machine

/-- Settles O6: the free event is taken whatever its value `e` is; nothing about `Config.envEvent` is used. -/
theorem unplacedEventIsFree : Obligations.UnplacedEventIsFree := by
  unfold Obligations.UnplacedEventIsFree
  rintro s e hqueue rfl
  exact step_of_free hqueue

end Sys2Proof.Machine
